-- ==== Sys2Proof/Word.lean ====
section
/-! DEFINITION. Word.lean: the widths the spec gives (R11, R12, R30, R32). Every register value is an unsigned
bit vector; no rule uses a signed reading (R11). -/

namespace Sys2Proof

/-- One 32-bit word of the register window: the only access width (R34). -/
abbrev Word := BitVec 32

/-- One byte lane of a word (R32). -/
abbrev Byte := BitVec 8

/-- A 384-bit register: OPA, OPB, RES, LA, LB (R15, R16, R28). -/
abbrev Reg := BitVec 384

/-- A 4-bit opcode field: CTRL.OP and LOP (R15, R21). -/
abbrev OpBits := BitVec 4

/-- The 4-bit STATUS.ERRCODE field (R15, R22). -/
abbrev ErrCode := BitVec 4

end Sys2Proof
end

