-- ==== Sys2Proof/Machine/Opcode.lean ====
section
/-! DEFINITION. Machine/Opcode.lean: the five opcodes that name commands (R45). -/

namespace Sys2Proof.Machine

/-- The legal opcodes 0x1 to 0x5 (R45). -/
inductive Opcode where
  | mmul
  | msqr
  | mredc
  | tomont
  | frommont
deriving DecidableEq, Repr

/-- The opcode map (R45). -/
def Opcode.bits : Opcode → OpBits
  | .mmul => 0x1
  | .msqr => 0x2
  | .mredc => 0x3
  | .tomont => 0x4
  | .frommont => 0x5

/-- The opcode a 4-bit field names; `none` on the reserved values 0x0 and 0x6 to 0xF (R45, R49). -/
def Opcode.ofBits (op : OpBits) : Option Opcode :=
  if op = 0x1 then some .mmul
  else if op = 0x2 then some .msqr
  else if op = 0x3 then some .mredc
  else if op = 0x4 then some .tomont
  else if op = 0x5 then some .frommont
  else none

end Sys2Proof.Machine
end

