-- ==== Sys2Proof/Syntax.lean ====
section
/-! DEFINITION. Syntax.lean: the command set, one constructor per row of spec/opcode_table.json (R44, R45, R46). -/

namespace Sys2Proof

/-- A command: a 32-bit word written to CTRL with START = 1 (R44). Its OP field is the constructor; `ie` is bit 16 of the
same word, which every CTRL write stores into CTRL.IE (R21, R44). The reserved bits 7:4, 15:9 and 31:17 play no part (R48),
so a command does not carry them (log entry 4). A command carries no immediate and no register number (R47). -/
inductive Instr where
  | mmul (ie : Bool)
  | msqr (ie : Bool)
  | mredc (ie : Bool)
  | tomont (ie : Bool)
  | frommont (ie : Bool)
deriving DecidableEq, Repr

end Sys2Proof
end

