-- ==== Sys2Proof/Decode.lean ====
section
/-! DEFINITION. Decode.lean: the decoder of a CTRL write, total on every word (R48), and the encoder from the same table
(R44, R45, R46). -/

namespace Sys2Proof

open Machine (Opcode)

/-- What a word written to CTRL asks for (R48): nothing but the write of OP and IE; a START with a reserved opcode, rejected
under the name ILLEGAL_OP (R25, R49); or a command. -/
inductive Decoded where
  | noCommand
  | illegal (op : OpBits)
  | command (i : Instr)
deriving DecidableEq, Repr

/-- Bits 3:0 of a CTRL word: OP (R21, R44). -/
def ctrlOp (v : Word) : OpBits := v.extractLsb' 0 4

/-- Bit 8 of a CTRL word: START (R21, R44). -/
def ctrlStart (v : Word) : Bool := v.getLsbD 8

/-- Bit 16 of a CTRL word: IE (R21, R44). -/
def ctrlIe (v : Word) : Bool := v.getLsbD 16

/-- The command of an opcode, with the IE bit of its word. -/
def Instr.ofOpcode (op : Opcode) (ie : Bool) : Instr :=
  match op with
  | .mmul => .mmul ie
  | .msqr => .msqr ie
  | .mredc => .mredc ie
  | .tomont => .tomont ie
  | .frommont => .frommont ie

/-- The opcode of a command (R45). -/
def Instr.opcode : Instr → Opcode
  | .mmul _ => .mmul
  | .msqr _ => .msqr
  | .mredc _ => .mredc
  | .tomont _ => .tomont
  | .frommont _ => .frommont

/-- The IE bit of a command's word. -/
def Instr.ie : Instr → Bool
  | .mmul ie => ie
  | .msqr ie => ie
  | .mredc ie => ie
  | .tomont ie => ie
  | .frommont ie => ie

/-- Decode (R48). Bits 31:17, 15:9 and 7:4 play no part. -/
def decode (v : Word) : Decoded :=
  if ctrlStart v then
    match Opcode.ofBits (ctrlOp v) with
    | some op => .command (Instr.ofOpcode op (ctrlIe v))
    | none => .illegal (ctrlOp v)
  else .noCommand

/-- Four bytes in ascending address order, as the word they are: little-endian (R32). -/
def wordOfBytes (b0 b1 b2 b3 : Byte) : Word := b3 ++ b2 ++ b1 ++ b0

/-- Byte k of a word: bits 8k+7 down to 8k (R32). -/
def byteOfWord (w : Word) (k : Nat) : Byte := w.extractLsb' (8 * k) 8

/-- What a string of bytes decodes to: a command is exactly one 32-bit word (R44), so any other length is rejected by name. -/
inductive ByteDecoded where
  | word (d : Decoded)
  | notOneWord (length : Nat)
deriving DecidableEq, Repr

/-- The decoder on bytes in ascending address order, total (R32, R44, R48). -/
def decodeBytes (bs : List Byte) : ByteDecoded :=
  match bs with
  | [b0, b1, b2, b3] => .word (decode (wordOfBytes b0 b1 b2 b3))
  | _ => .notOneWord bs.length

/-- The encoder: the command word with its reserved bits 0 (R46). -/
def encode (i : Instr) : Word :=
  (if i.ie then 0x00010100 else 0x00000100) ||| (i.opcode.bits).setWidth 32

/-- The word the opcode table's numbering gives: the low `nbits` bits of `w`, the bits above them 0. -/
def tableWord (nbits w : Nat) : Word := BitVec.ofNat 32 (w % 2 ^ nbits)

/-- The instruction the decoder reads from a table word laid out as the hardware stores it, four bytes little-endian (R32). -/
def decodeTableWord (nbits w : Nat) : Option Instr :=
  let v := tableWord nbits w
  match decodeBytes [byteOfWord v 0, byteOfWord v 1, byteOfWord v 2, byteOfWord v 3] with
  | .word (.command i) => some i
  | _ => none

end Sys2Proof
end

