-- ==== Sys2Proof/Config.lean ====
section
/-! DEFINITION. Config.lean: what is hardwired (R6, R7: the modulus and the Montgomery constants, no register holds them)
and the parameters the spec leaves OPEN (R10; 93 X1 to X4). An open parameter is an opaque constant: nothing in Lean can
evaluate it, so a claim that mentions one holds for every value it may have. -/

namespace Sys2Proof.Config

/-- The modulus p (R6), hardwired. UNVERIFIED: the spec marks its digits as general knowledge (log entry 6). -/
def p : Nat :=
  0x1a0111ea397fe69a4b1ba7b6434bacd764774b84f38512bf6730d2a0f6b0f6241eabfffeb153ffffb9feffffffffaaab

/-- The Montgomery radix R = 2^384 (R7). -/
def R : Nat := 2 ^ 384

/-- R⁻¹ mod p (R7): the integer in [0, p) whose product with R is 1 modulo p. -/
def Rinv : Nat :=
  0x14fec701e8fb0ce9ed5e64273c4f538b1797ab1458a88de9343ea97914956dc87fe11274d898fafbf4d38259380b4820

/-- R mod p, the Montgomery form of 1 (R7). -/
def RmodP : Nat :=
  0x15f65ec3fa80e4935c071a97a256ec6d77ce5853705257455f48985753c758baebf4000bc40c0002760900000002fffd

/-- R² mod p (R7). -/
def R2modP : Nat :=
  0x11988fe592cae3aa9a793e85b519952d67eb88a9939d83c08de5476c4c95b6d50a76e6a609d104f1f4df1f341c341746

/-- The size of the register window in bytes (R10, R30). -/
def windowSize : Nat := 0x200

/-- OPEN parameter BASE (R10, R30; 93 X1), as the number of 0x200-byte windows below it. -/
opaque baseIndex : Nat

/-- BASE, the host byte address of the register window; aligned to 0x200 by its form (R30). -/
def base : Nat := windowSize * baseIndex

/-- OPEN parameter LAT (R10, R89; 93 X2), less the one cycle it has at least. -/
opaque latencyBeyondOne : OpBits → Nat

/-- LAT(op) ≥ 1 clock cycles from an accepted START to its completion (R89). A function of the opcode alone, as R90 asks.
The model has no time (R89), so no step reads it. -/
def latency (op : OpBits) : Nat := latencyBeyondOne op + 1

/-- OPEN parameter IRQ_LINE (R68; 93 X3): the interrupt controller's input that `irq` drives. -/
opaque irqLine : Nat

/-- The reactions R67 names for a host that receives a bus error. -/
inductive BusErrorAction where
  | preciseAbort
  | impreciseAbort
  | ignore
deriving DecidableEq, Repr, Inhabited

/-- OPEN parameter HOST_BUS_ERROR_ACTION (R67; 93 X4): the platform's choice. The block's side of a bus error does not
depend on it. -/
opaque hostBusErrorAction : BusErrorAction

end Sys2Proof.Config
end

