-- ==== Sys2Proof/Machine/Transaction.lean ====
section
/-! DEFINITION. Machine/Transaction.lean: what reaches the block from outside (R3, R35, R36, R39, R80) and what a host
gets back (R35, R36, R67). -/

namespace Sys2Proof.Machine

/-- One host transaction at a byte offset of the register window (R13, R35, R36, R37). `size` is in bytes; a 64-bit or burst
access is one with another size than 4 (R33). `enables` are the four byte enables of a write, bit k for byte lane k (R32);
`v` is the word a 4-byte write carries (log entry 12). -/
inductive Access where
  | read (off size : Nat)
  | write (off size : Nat) (enables : BitVec 4) (v : Word)
deriving DecidableEq, Repr

/-- One turn of an agent in the single total order of steps (R3, R39): a host transaction, the engine's turn to complete the
command in flight (R55), or the platform asserting reset (R80). -/
inductive Event where
  | host (a : Access)
  | engine
  | reset
deriving DecidableEq, Repr

/-- The response of one host transaction: the word a read returns (R35), a write that completes (R36), or a bus error at an
offset (R67). -/
inductive Response where
  | data (w : Word)
  | completes
  | busError (off : Nat)
deriving DecidableEq, Repr

end Sys2Proof.Machine
end

