-- ==== Sys2Proof/Machine/State.lean ====
section
/-! DEFINITION. Machine/State.lean: the complete architectural state of the block (R15), and the two fields that hold the
outside world's side of the interface as plain data (log entries 1 and 13). -/

namespace Sys2Proof.Machine

/-- The state. The first twelve fields are R15's table, in its order; no other architectural state exists (R15, R29). `irq` is
a function of them (R68), not a field. `events` and `responses` are the model's own. -/
structure State where
  /-- CTRL.OP, bits 3:0 of CTRL (R21) -/
  op : OpBits
  /-- CTRL.IE, bit 16 of CTRL (R21) -/
  ie : Bool
  /-- STATUS.BUSY, bit 0 of STATUS (R22, R24) -/
  busy : Bool
  /-- STATUS.DONE, bit 1 of STATUS (R22, R24) -/
  done : Bool
  /-- STATUS.ERR, bit 2 of STATUS (R22, R24) -/
  err : Bool
  /-- STATUS.ERRCODE, bits 11:8 of STATUS (R22, R24, R25) -/
  errcode : ErrCode
  /-- operand A, window offsets 0x100 to 0x12F (R17) -/
  opa : Reg
  /-- operand B, window offsets 0x140 to 0x16F (R18) -/
  opb : Reg
  /-- result, window offsets 0x180 to 0x1AF (R19) -/
  res : Reg
  /-- LOP, the latched opcode; no host access reads it (R28) -/
  lop : OpBits
  /-- LA, the latched operand A (R28) -/
  la : Reg
  /-- LB, the latched operand B (R28) -/
  lb : Reg
  /-- the agents' turns still to come, first turn first: R39's one total order, left free (log entry 1) -/
  events : List Event
  /-- the responses of the host transactions so far, newest first (log entry 13) -/
  responses : List Response
deriving DecidableEq, Repr

/-- Why the machine stops. No rule of the spec stops the block: its errors are flags and bus responses (R66, R70). -/
inductive Fault where
  /-- Raised by the completion step when LOP names no command. Safe: the spec gives such a completion no result, and no
  reachable state has BUSY = 1 with such an LOP (R26 (d), log entry 7). -/
  | latchedOpcodeIllegal (op : OpBits)
deriving DecidableEq, Repr

/-- Why an instruction has no meaning here. -/
inductive Refusal where
  /-- Raised by an arm of `exec` whose instruction has no meaning yet; safe. No arm of this model raises it. -/
  | notModelled (mnemonic : String)
deriving DecidableEq, Repr

/-- The machine right after reset (R81), with nothing placed by the outside world. -/
def State.reset : State where
  op := 0x0
  ie := false
  busy := false
  done := false
  err := false
  errcode := 0x0
  opa := 0
  opb := 0
  res := 0
  lop := 0x0
  la := 0
  lb := 0
  events := []
  responses := []

/-- The same state with other turns still to come. -/
def State.withEvents (s : State) (es : List Event) : State := { s with events := es }

/-- What a step of the machine answers. -/
abbrev Result := Host.Outcome State Fault Refusal

end Sys2Proof.Machine
end

