-- ==== Sys2Proof/Machine/Flags.lean ====
section
/-! DEFINITION. Machine/Flags.lean: the status flags, what sets and clears each (R22 to R25, R53), the CTRL and STATUS words
(R21, R22) and the interrupt output (R68). -/

namespace Sys2Proof.Machine

/-- ERRCODE 0x1 (R25). -/
def illegalOp : ErrCode := 0x1
/-- ERRCODE 0x2 (R25). -/
def operandRange : ErrCode := 0x2
/-- ERRCODE 0x3 (R25). -/
def startBusy : ErrCode := 0x3

/-- Set ERR, keeping the first error: ERRCODE is written only when ERR was 0 (R24, R53, R55, R69 (b)). -/
def State.raiseErr (s : State) (code : ErrCode) : State :=
  { s with errcode := bif s.err then s.errcode else code, err := true }

/-- `reject(code)`: a rejected START changes nothing else (R53). -/
def State.reject (s : State) (code : ErrCode) : State := s.raiseErr code

/-- DONE <- 0 (R23). -/
def State.clearDone (s : State) : State := { s with done := false }

/-- ERR <- 0, and ERRCODE with it (R23). -/
def State.clearErr (s : State) : State := { s with err := false, errcode := 0x0 }

/-- A host write of word v to STATUS (R23): bits 1 and 2 clear what is 1 there; every other bit is ignored. -/
def State.statusWrite (s : State) (v : Word) : State :=
  let s := if v.getLsbD 1 then s.clearDone else s
  if v.getLsbD 2 then s.clearErr else s

/-- A one-bit field as a word. -/
def bit (b : Bool) : Word := if b then 1 else 0

/-- The word a read of CTRL returns (R21): START and the reserved bits read 0. -/
def State.ctrlWord (s : State) : Word := (bit s.ie <<< 16) ||| s.op.setWidth 32

/-- The word a read of STATUS returns (R22): the reserved bits read 0. -/
def State.statusWord (s : State) : Word :=
  (s.errcode.setWidth 32 <<< 8) ||| (bit s.err <<< 2) ||| (bit s.done <<< 1) ||| bit s.busy

/-- The interrupt output: `irq = CTRL.IE and (STATUS.DONE or STATUS.ERR)` (R68). -/
def State.irq (s : State) : Bool := s.ie && (s.done || s.err)

/-- The level of an input of the platform's interrupt controller, as far as this block drives it: `irq` on IRQ_LINE (R68). -/
def State.irqOnLine (s : State) (line : Nat) : Bool := line == Config.irqLine && s.irq

end Sys2Proof.Machine
end

