-- ==== Sys2Proof/Machine/Operands.lean ====
section
/-! DEFINITION. Machine/Operands.lean: words and values of 384-bit registers (R11, R12, R14), the operands each command
reads (R47) and the range predicate on them (R54). -/

namespace Sys2Proof.Machine

/-- `X.w[i] = X[32i+31:32i]` (R12). -/
def getWord (x : Reg) (i : Nat) : Word := x.extractLsb' (32 * i) 32

/-- `X.w[i] <- w`: the other words keep their value (R12, R17). -/
def setWord (x : Reg) (i : Nat) (w : Word) : Reg :=
  (x &&& ~~~((0xFFFFFFFF : Reg) <<< (32 * i))) ||| (w.setWidth 384 <<< (32 * i))

/-- `Val(X)`, the unsigned integer a register holds (R11, R14). -/
abbrev val (x : Reg) : Nat := x.toNat

/-- `Wide = Val(OPB)·2^384 + Val(OPA)`, the 768-bit input of MREDC (R14, R47), from its halves B and A. -/
def wide (A B : Nat) : Nat := B * 2 ^ 384 + A

/-- A value is canonical when it is below p (R8). -/
def canonical (v : Nat) : Bool := decide (v < Config.p)

/-- MMUL's range predicate (R54, R58). -/
def inRangeMmul (A B : Nat) : Bool := canonical A && canonical B

/-- MSQR's range predicate; B plays no part (R54, R59). -/
def inRangeMsqr (A _B : Nat) : Bool := canonical A

/-- MREDC's range predicate: T < p·2^384 (R54, R60). -/
def inRangeMredc (A B : Nat) : Bool := decide (wide A B < Config.p * 2 ^ 384)

/-- TOMONT's range predicate (R54, R61). -/
def inRangeTomont (A _B : Nat) : Bool := canonical A

/-- FROMMONT's range predicate (R54, R62). -/
def inRangeFrommont (A _B : Nat) : Bool := canonical A

/-- `InRange(op, A, B)` (R54). -/
def inRange (op : Opcode) (A B : Nat) : Bool :=
  match op with
  | .mmul => inRangeMmul A B
  | .msqr => inRangeMsqr A B
  | .mredc => inRangeMredc A B
  | .tomont => inRangeTomont A B
  | .frommont => inRangeFrommont A B

end Sys2Proof.Machine
end

