-- ==== Sys2Proof/Machine/Results.lean ====
section
/-! DEFINITION. Machine/Results.lean: `Result(op, A, B)` of each command (R58 to R62), computed exactly on natural numbers
and reduced modulo p at the end, with no truncation at any width (R63). -/

namespace Sys2Proof.Machine

/-- MMUL: A·B·R⁻¹ mod p (R58). -/
def resultMmul (A B : Nat) : Nat := (A * B * Config.Rinv) % Config.p

/-- MSQR: A·A·R⁻¹ mod p (R59). -/
def resultMsqr (A _B : Nat) : Nat := (A * A * Config.Rinv) % Config.p

/-- MREDC: T·R⁻¹ mod p, T = B·2^384 + A (R60). -/
def resultMredc (A B : Nat) : Nat := (wide A B * Config.Rinv) % Config.p

/-- TOMONT: A·2^384 mod p (R61). -/
def resultTomont (A _B : Nat) : Nat := (A * 2 ^ 384) % Config.p

/-- FROMMONT: A·R⁻¹ mod p (R62). -/
def resultFrommont (A _B : Nat) : Nat := (A * Config.Rinv) % Config.p

/-- `Result(op, A, B)`, a function of (op, A, B) alone (R57). -/
def result (op : Opcode) (A B : Nat) : Nat :=
  match op with
  | .mmul => resultMmul A B
  | .msqr => resultMsqr A B
  | .mredc => resultMredc A B
  | .tomont => resultTomont A B
  | .frommont => resultFrommont A B

end Sys2Proof.Machine
end

