-- ==== Sys2Proof/Machine/Ops.lean ====
section
/-! DEFINITION. Machine/Ops.lean: the named operations every agent's step is made of: the CTRL fields (R21), the START request
(R52, R53), the completion step (R55), register reads (R35), operand writes (R36) and reset (R80). The block takes no trap
and has no return from one (R70, R71): its one shared error operation is `State.reject`. -/

namespace Sys2Proof.Machine

/-- The part of a CTRL write that every word does: OP and IE (R21). -/
def State.setCtrl (s : State) (op : OpBits) (ie : Bool) : State := { s with op := op, ie := ie }

/-- An accepted START: the latches take OP, OPA and OPB, the flags are cleared and BUSY is set (R52). Nothing else changes. -/
def State.accept (s : State) (op : OpBits) : State :=
  { s with
    lop := op
    la := s.opa
    lb := s.opb
    done := false
    err := false
    errcode := 0x0
    busy := true }

/-- `StartRequest(op)` (R52): the busy check first, then the opcode check (R69 (a)). -/
def State.startRequest (s : State) (op : OpBits) : State :=
  if s.busy then s.reject startBusy
  else match Opcode.ofBits op with
    | none => s.reject illegalOp
    | some _ => s.accept op

/-- A CTRL write with START = 1: OP and IE, then the START request, in one step (R21). -/
def State.startCommand (s : State) (op : OpBits) (ie : Bool) : State :=
  (s.setCtrl op ie).startRequest op

/-- What a completion writes, given whether the inputs were in range and the value of `Result` (R55). -/
def State.finish (s : State) (ok : Bool) (v : Nat) : State :=
  { (bif ok then s else s.raiseErr operandRange) with
    res := bif ok then BitVec.ofNat 384 v else 0
    done := true
    busy := false }

/-- `Complete()` (R55), on the latched operands. Where LOP names no command the spec gives no result: a named fault that
no reachable state raises (log entry 7). -/
def State.complete (s : State) : Result :=
  match Opcode.ofBits s.lop with
  | none => .fault (.latchedOpcodeIllegal s.lop)
  | some op => .next (s.finish (inRange op (val s.la) (val s.lb)) (result op (val s.la) (val s.lb)))

/-- The engine's turn: the completion step is enabled exactly when BUSY = 1 (R55); otherwise nothing happens (R79). -/
def State.engineTurn (s : State) : Result := if s.busy then s.complete else .next s

/-- Reset: one atomic step that sets every item of R15 to its reset value, abandoning a command in flight (R80, R81). The
outside world's own record, the turns to come and the responses so far, is no item of R15 and stays (log entry 11). -/
def State.applyReset (s : State) : State :=
  { State.reset with events := s.events, responses := s.responses }

/-- `BusRead(off, sz)` (R35). A read changes no state. -/
def State.busRead (s : State) (off size : Nat) : Response :=
  if size ≠ 4 ∨ off % 4 ≠ 0 then .busError off
  else if off = 0x000 then .data s.ctrlWord
  else if off = 0x004 then .data s.statusWord
  else if 0x100 ≤ off ∧ off ≤ 0x12C then .data (getWord s.opa ((off - 0x100) / 4))
  else if 0x140 ≤ off ∧ off ≤ 0x16C then .data (getWord s.opb ((off - 0x140) / 4))
  else if 0x180 ≤ off ∧ off ≤ 0x1AC then .data (getWord s.res ((off - 0x180) / 4))
  else .busError off

/-- The byte of the window at a byte offset: byte `off mod 4` of the word there, little-endian (R32); `none` at a reserved
offset. No bus access moves a byte alone (R33): this is the byte view R32 speaks of. -/
def State.windowByte (s : State) (off : Nat) : Option Byte :=
  match s.busRead (off - off % 4) 4 with
  | .data w => some (byteOfWord w (off % 4))
  | _ => none

/-- `OPA.w[i] <- v` (R36). -/
def State.setOpaWord (s : State) (i : Nat) (v : Word) : State := { s with opa := setWord s.opa i v }

/-- `OPB.w[i] <- v` (R36). -/
def State.setOpbWord (s : State) (i : Nat) (v : Word) : State := { s with opb := setWord s.opb i v }

/-- The interface's side of one transaction: its response is recorded. -/
def State.respond (s : State) (r : Response) : State := { s with responses := r :: s.responses }

end Sys2Proof.Machine
end

