-- ==== Sys2Proof/Machine/Montgomery.lean ====
section
/-! DEFINITION. Machine/Montgomery.lean: the meaning of each command word as the one atomic step in which the host writes it
to CTRL (R21, R52, R58 to R62). The step starts the command; what it computes is `Result` (Machine/Results.lean), written to
RES by the engine's later completion step (R55), whose place in the order of steps is free (R39). -/

namespace Sys2Proof.Machine

/-- MMUL (R58): CTRL write with OP = 0x1 and START = 1. -/
def execMmul (ie : Bool) (s : State) : Result := .next (s.startCommand Opcode.mmul.bits ie)

/-- MSQR (R59): CTRL write with OP = 0x2 and START = 1. -/
def execMsqr (ie : Bool) (s : State) : Result := .next (s.startCommand Opcode.msqr.bits ie)

/-- MREDC (R60): CTRL write with OP = 0x3 and START = 1. -/
def execMredc (ie : Bool) (s : State) : Result := .next (s.startCommand Opcode.mredc.bits ie)

/-- TOMONT (R61): CTRL write with OP = 0x4 and START = 1. -/
def execTomont (ie : Bool) (s : State) : Result := .next (s.startCommand Opcode.tomont.bits ie)

/-- FROMMONT (R62): CTRL write with OP = 0x5 and START = 1. -/
def execFrommont (ie : Bool) (s : State) : Result := .next (s.startCommand Opcode.frommont.bits ie)

end Sys2Proof.Machine
end

