-- ==== Sys2Proof/Machine/Dispatch.lean ====
section
/-! DEFINITION. Machine/Dispatch.lean: one arm per command. -/

namespace Sys2Proof.Machine
open Host

def exec (i : Instr) (s : State) : Host.Outcome State Fault Refusal :=
  match i with
  | .mmul ie => Sys2Proof.Machine.execMmul ie s
  | .msqr ie => Sys2Proof.Machine.execMsqr ie s
  | .mredc ie => Sys2Proof.Machine.execMredc ie s
  | .tomont ie => Sys2Proof.Machine.execTomont ie s
  | .frommont ie => Sys2Proof.Machine.execFrommont ie s

end Sys2Proof.Machine
end

