-- ==== Sys2Proof/WellFormed.lean ====
section
/-! DEFINITION. WellFormed.lean: which commands and which host accesses the spec admits (R31, R33, R44). -/

namespace Sys2Proof

/-- Every command is well formed: a command word has no operand field that could be out of range (R47), and IE may be 0 or
1 (R21). -/
def Instr.wellFormed (_i : Instr) : Bool := true

namespace Machine

/-- An offset at which a register word lies (R31): CTRL, STATUS, and the twelve words of OPA, OPB and RES. -/
def mappedOffset (off : Nat) : Bool :=
  off == 0x000 || off == 0x004
    || (decide (0x100 ≤ off) && decide (off ≤ 0x12C))
    || (decide (0x140 ≤ off) && decide (off ≤ 0x16C))
    || (decide (0x180 ≤ off) && decide (off ≤ 0x1AC))

/-- An access the block serves without a bus error (R33, R31): four bytes wide, aligned, all byte enables active, at a mapped
offset. An access that is not well formed is no stop of the machine: it gets a bus error (R67). -/
def Access.wellFormed : Access → Bool
  | .read off size => size == 4 && off % 4 == 0 && mappedOffset off
  | .write off size enables _ => size == 4 && off % 4 == 0 && enables == 0xF && mappedOffset off

end Machine
end Sys2Proof
end

