-- ==== Sys2Proof/Machine/Bus.lean ====
section
/-! DEFINITION. Machine/Bus.lean: the host's transactions as steps of the block (R13, R35, R36, R39), one event of the total
order at a time. -/

namespace Sys2Proof.Machine

/-- A host write of word v to CTRL, one atomic step (R21, R48). -/
def State.ctrlWrite (s : State) (v : Word) : Result :=
  match decode v with
  | .noCommand => .next (s.setCtrl (ctrlOp v) (ctrlIe v))
  | .illegal op => .next (s.startCommand op (ctrlIe v))
  | .command i => exec i s

/-- `BusWrite(off, sz, v)` with its byte enables (R36): the response, and the block's step. A write to RES completes without
effect; a bus error changes no state (R67). -/
def State.busWrite (s : State) (off size : Nat) (enables : BitVec 4) (v : Word) : Result :=
  if size ≠ 4 ∨ off % 4 ≠ 0 ∨ enables ≠ 0xF then .next (s.respond (.busError off))
  else if off = 0x000 then (s.respond .completes).ctrlWrite v
  else if off = 0x004 then .next ((s.respond .completes).statusWrite v)
  else if 0x100 ≤ off ∧ off ≤ 0x12C then .next ((s.respond .completes).setOpaWord ((off - 0x100) / 4) v)
  else if 0x140 ≤ off ∧ off ≤ 0x16C then .next ((s.respond .completes).setOpbWord ((off - 0x140) / 4) v)
  else if 0x180 ≤ off ∧ off ≤ 0x1AC then .next (s.respond .completes)
  else .next (s.respond (.busError off))

/-- One host transaction (R35, R36). -/
def State.access (s : State) : Access → Result
  | .read off size => .next (s.respond (s.busRead off size))
  | .write off size enables v => s.busWrite off size enables v

/-- One turn of an agent (R39, R80). -/
def State.turn (s : State) : Event → Result
  | .host a => s.access a
  | .engine => s.engineTurn
  | .reset => .next s.applyReset

/-- The turn that comes next. When no turn is listed, the host is silent and only the engine can step (R3): a command in
flight completes, which is R89's weak fairness; an idle block keeps every value (R79). -/
def State.nextTurn (s : State) : Result :=
  match s.events with
  | [] => s.engineTurn
  | e :: es => (s.withEvents es).turn e

/-- The transaction that carries a word to CTRL: an aligned 32-bit write with all byte enables at offset 0x000 (R44). -/
def ctrlAccess (v : Word) : Access := .write 0x000 4 0xF v

/-- The window offset of a host byte address; `none` outside [BASE, BASE + 0x200), where the block is not reached (R30,
R37). -/
def windowOffset (addr : Nat) : Option Nat :=
  if Config.base ≤ addr ∧ addr < Config.base + Config.windowSize then some (addr - Config.base) else none

/-- `MemRead(addr, n)` is `BusRead(addr − BASE, n)` (R13). -/
def State.memRead (s : State) (addr n : Nat) : Option Response :=
  (windowOffset addr).map fun off => s.busRead off n

/-- `MemWrite(addr, n, v)` is `BusWrite(addr − BASE, n, v)`, all byte enables active (R13). -/
def State.memWrite (s : State) (addr n : Nat) (v : Word) : Option Result :=
  (windowOffset addr).map fun off => s.busWrite off n 0xF v

/-- What the host does with a response: a bus error meets HOST_BUS_ERROR_ACTION, the platform's choice (R67). -/
def hostReaction : Response → Option Config.BusErrorAction
  | .busError _ => some Config.hostBusErrorAction
  | _ => none

end Sys2Proof.Machine
end

