-- ==== Sys2Proof/Machine/Step.lean ====
section
/-! DEFINITION. Machine/Step.lean: one step of the machine (R3, R39): the next turn of the total order. The block has no
program counter and fetches nothing (R20); a command reaches it as a host write to CTRL. -/

namespace Sys2Proof.Machine

/-- One atomic step. -/
def step (s : State) : Host.Outcome State Fault Refusal := s.nextTurn

/-- The machine whose very next turn is the host's write of the word to CTRL (R44); every other turn follows it as before
(log entry 2). -/
def State.withFetchWord (s : State) (nbits w : Nat) : State :=
  s.withEvents (.host (ctrlAccess (tableWord nbits w)) :: s.events)

end Sys2Proof.Machine
end

