-- ==== Sys2Proof/Machine/Cios.lean ====
section
/-! DEFINITION. Machine/Cios.lean: the informative word-serial algorithm of 40_montgomery.md section 5 (92 D27: not normative;
the step does not use it). It stands beside `Result` so that a claim can say that its outputs equal `Result`. -/

namespace Sys2Proof.Machine

/-- −p⁻¹ mod 2^64 (40_montgomery.md section 5). -/
def cinv : Nat := 0x89f3fffcfffcfffd

/-- The n 64-bit limbs of a value, least significant first. -/
def limbsOf (n v : Nat) : List Nat := (List.range n).map fun i => v / 2 ^ (64 * i) % 2 ^ 64

/-- The integer that limbs stand for. -/
def valOfLimbs (l : List Nat) : Nat := l.foldr (fun x acc => x + 2 ^ 64 * acc) 0

/-- One inner loop of the algorithm, `(c, t[j]) <- t[j] + a[j]·b + c` for ascending j: the new limbs and the carry out. -/
def macRow : List Nat → List Nat → Nat → Nat → List Nat × Nat
  | x :: t, y :: a, b, c =>
    let sum := x + y * b + c
    let rest := macRow t a b (sum / 2 ^ 64)
    (sum % 2 ^ 64 :: rest.1, rest.2)
  | _, _, _, c => ([], c)

/-- The limbs of p (R6). -/
def pLimbs : List Nat := limbsOf 6 Config.p

/-- One outer iteration for the limb `bi`, on t[0..5] and t[6]: add a·bi, then m·p with m chosen so that the lowest limb
becomes 0, and drop that limb. -/
def ciosIteration (a : List Nat) (t : List Nat × Nat) (bi : Nat) : List Nat × Nat :=
  let row := macRow t.1 a bi 0
  let t6 := (t.2 + row.2) % 2 ^ 64
  let t7 := (t.2 + row.2) / 2 ^ 64
  let m := (row.1.headD 0 * cinv) % 2 ^ 64
  let red := macRow row.1 pLimbs m 0
  (red.1.tail ++ [(t6 + red.2) % 2 ^ 64], t7 + (t6 + red.2) / 2 ^ 64)

/-- The final subtraction: u ≥ p selects u − p. -/
def subtractOnce (u : Nat) : Nat := if Config.p ≤ u then u - Config.p else u

/-- MontMulCIOS(a, b). -/
def montMulCios (a b : Nat) : Nat :=
  let t := (limbsOf 6 b).foldl (ciosIteration (limbsOf 6 a)) (List.replicate 6 0, 0)
  subtractOnce (valOfLimbs t.1 + 2 ^ 384 * t.2)

/-- The reduction half of the loop, n limbs of it, on a wide value. -/
def redcLoop : Nat → Nat → Nat
  | 0, u => u
  | n + 1, u => redcLoop n ((u + ((u % 2 ^ 64) * cinv % 2 ^ 64) * Config.p) / 2 ^ 64)

/-- Word-serial Montgomery reduction of a wide value: six limbs, then the final subtraction. -/
def montRedcWords (T : Nat) : Nat := subtractOnce (redcLoop 6 T)

end Sys2Proof.Machine
end

