-- ==== Sys2Proof/Machine/HostNotation.lean ====
section
/-! DEFINITION. Machine/HostNotation.lean: the host notation (R50) and the pseudo-instructions by their exact expansions (R51), as
host programs that react to what they read, and the run of such a program beside the engine. The block knows nothing of
them: it sees the transactions they issue. -/

namespace Sys2Proof.Machine

/-- A host program (R50): the transactions it issues, each next one chosen from the responses so far. `loop a again next` is
`L: a -> r; if again r goto L`, then `next`. `stopped off` is a program whose transaction at `off` got a bus error: what the
host does then is HOST_BUS_ERROR_ACTION (R67; log entry 14). -/
inductive HostProg (α : Type) where
  | done (h : α)
  | issue (a : Access) (next : Response → HostProg α)
  | loop (a : Access) (again : Response → Bool) (next : HostProg α)
  | stopped (off : Nat)

namespace HostProg

variable {α β : Type}

/-- One program, then another on the value it leaves. -/
def bind : HostProg α → (α → HostProg β) → HostProg β
  | done h, f => f h
  | issue a next, f => issue a fun r => (next r).bind f
  | loop a again next, f => loop a again (next.bind f)
  | stopped off, _ => stopped off

/-- `p ; q`. -/
def seq (p : HostProg α) (q : HostProg β) : HostProg β := p.bind fun _ => q

/-- The transaction the program issues next; `none` when it has ended. -/
def nextAccess : HostProg α → Option Access
  | done _ => none
  | issue a _ => some a
  | loop a _ _ => some a
  | stopped _ => none

/-- The program after the response to its transaction. -/
def resume : HostProg α → Response → HostProg α
  | done h, _ => done h
  | issue _ next, r => next r
  | loop a again next, r => if again r then loop a again next else next
  | stopped off, _ => stopped off

/-- One turn of a program and a block: the host's (`true`), in which the program's next transaction goes before every listed
turn, or another agent's (`false`), in which the block steps as it does alone (R39). A program that has ended leaves the
host silent. -/
def turn (p : HostProg α) (s : State) : Bool → Host.Outcome (State × HostProg α) Fault Refusal
  | true =>
    match p.nextAccess with
    | none => .next (s, p)
    | some a =>
      match step (s.withEvents (.host a :: s.events)) with
      | .next t => .next (t, p.resume (t.responses.headD .completes))
      | .fault f => .fault f
      | .refused r => .refused r
  | false =>
    match step s with
    | .next t => .next (t, p)
    | .fault f => .fault f
    | .refused r => .refused r

/-- The run of a program from a state under a schedule, which says whose each turn is: R39 leaves the order of host
transactions and the completion free, so a claim is about every schedule. -/
def run : List Bool → HostProg α → State → Host.Outcome (State × HostProg α) Fault Refusal
  | [], p, s => .next (s, p)
  | b :: sched, p, s =>
    match p.turn s b with
    | .next (t, q) => run sched q t
    | .fault f => .fault f
    | .refused r => .refused r

end HostProg

namespace HostNotation

open HostProg

/-- The register names' window offsets (R50). -/
def CTRL : Nat := 0x000
def STATUS : Nat := 0x004
def OPA : Nat := 0x100
def OPB : Nat := 0x140
def RES : Nat := 0x180

/-- `wr OFF, imm32` (R50). -/
def wr (off : Nat) (imm : Word) : HostProg Unit :=
  .issue (.write off 4 0xF imm) fun
    | .completes => .done ()
    | _ => .stopped off

/-- `rd OFF -> h` (R50). -/
def rd (off : Nat) : HostProg Word :=
  .issue (.read off 4) fun
    | .data h => .done h
    | _ => .stopped off

/-- The writes of `ld384` for the listed word numbers, in their order. -/
def writeWords (reg x : Nat) : List Nat → HostProg Unit
  | [] => .done ()
  | i :: is => (wr (reg + 4 * i) (BitVec.ofNat 32 (x / 2 ^ (32 * i)))).seq (writeWords reg x is)

/-- `ld384 REG, X` (R51): for i = 0 to 11 ascending, `wr REG+4i, X[32i+31:32i]`. -/
def ld384 (reg x : Nat) : HostProg Unit := writeWords reg x (List.range 12)

/-- The reads of `st384` for the listed word numbers, in their order, with the words they return. -/
def readWords (reg : Nat) : List Nat → HostProg (List Word)
  | [] => .done []
  | i :: is => (rd (reg + 4 * i)).bind fun h => (readWords reg is).bind fun hs => .done (h :: hs)

/-- `Σ h_i·2^(32i)`, h_0 first (R51). -/
def assemble (h : List Word) : Nat := h.foldr (fun w acc => w.toNat + 2 ^ 32 * acc) 0

/-- `st384 REG -> h` (R51): for i = 0 to 11 ascending, `rd REG+4i -> h_i`; then the sum of the words. -/
def st384 (reg : Nat) : HostProg Nat := (readWords reg (List.range 12)).bind fun h => .done (assemble h)

/-- `cmd OP` (R51). -/
def cmd (op : OpBits) : HostProg Unit := wr CTRL (0x00000100 ||| op.setWidth 32)

/-- `cmd.ie OP` (R51). -/
def cmdIe (op : OpBits) : HostProg Unit := wr CTRL (0x00010100 ||| op.setWidth 32)

/-- `mmul`, `msqr`, `mredc`, `tomont`, `frommont` (R51). -/
def mmul : HostProg Unit := cmd 0x1
def msqr : HostProg Unit := cmd 0x2
def mredc : HostProg Unit := cmd 0x3
def tomont : HostProg Unit := cmd 0x4
def frommont : HostProg Unit := cmd 0x5

/-- `mmul.ie`, `msqr.ie`, `mredc.ie`, `tomont.ie`, `frommont.ie` (R51). -/
def mmulIe : HostProg Unit := cmdIe 0x1
def msqrIe : HostProg Unit := cmdIe 0x2
def mredcIe : HostProg Unit := cmdIe 0x3
def tomontIe : HostProg Unit := cmdIe 0x4
def frommontIe : HostProg Unit := cmdIe 0x5

/-- `s[0] = 1`, for the word s that a read of STATUS returned. -/
def saysBusy : Response → Bool
  | .data s => s.getLsbD 0
  | _ => false

/-- `wait` (R51): `L: rd STATUS -> s; if s[0] = 1 goto L`. -/
def wait : HostProg Unit := .loop (.read STATUS 4) saysBusy (.done ())

/-- `clr` (R51). -/
def clr : HostProg Unit := wr STATUS 0x00000006

/-- `setie b` (R51): START = 0, and OP <- 0. -/
def setie (b : Bool) : HostProg Unit := wr CTRL (bit b <<< 16)

/-- `mov384 REG, RES` (R51): `st384 RES -> t; ld384 REG, t`. -/
def mov384 (reg : Nat) : HostProg Unit := (st384 RES).bind fun t => ld384 reg t

/-- R82's sequence. -/
def softwareReset : HostProg Unit :=
  wait.seq <| (ld384 OPA 0).seq <| (ld384 OPB 0).seq <| mmul.seq <| wait.seq <| clr.seq <| setie false

end HostNotation

end Sys2Proof.Machine
end

