-- ==== Sys2Proof/Safety.lean ====
section
/-! DEFINITION. Safety.lean: the terms claims are stated in: R26's invariants, who moves in a step (R3, R15, R24), and what
the host can see (R28, R35, R68). -/

namespace Sys2Proof.Machine

/-- R26: (a) ERR = 0 iff ERRCODE = 0; (b) ERRCODE ∈ 0x0 to 0x3; (c) Val(RES) < p; (d) BUSY = 1 implies LOP ∈ 0x1 to 0x5. -/
structure State.Inv (s : State) : Prop where
  errIffCode : s.err = false ↔ s.errcode = 0
  codeLegal : s.errcode = 0 ∨ s.errcode = 1 ∨ s.errcode = 2 ∨ s.errcode = 3
  resCanonical : s.res.toNat < Config.p
  busyLop : s.busy = true → s.lop = 1 ∨ s.lop = 2 ∨ s.lop = 3 ∨ s.lop = 4 ∨ s.lop = 5

/-- The next step of s is the engine's turn: it is listed next, or no turn is listed. -/
def State.engineNext (s : State) : Prop := s.events = [] ∨ ∃ es, s.events = .engine :: es

/-- The next step of s is a completion: the engine's turn, with a command in flight (R55). -/
def State.completes (s : State) : Prop := s.busy = true ∧ s.engineNext

/-- The next step of s is reset (R80). -/
def State.resetNext (s : State) : Prop := ∃ es, s.events = .reset :: es

/-- The next step of s is a host write of v that reaches the register at `off`: 32 bits wide, all byte enables (R33, R36). -/
def State.writesNext (s : State) (off : Nat) (v : Word) : Prop := ∃ es, s.events = .host (.write off 4 0xF v) :: es

/-- The next step of s is a host write to CTRL with START = 1 (R52). -/
def State.startsNext (s : State) : Prop := ∃ v, s.writesNext 0x000 v ∧ v.getLsbD 8 = true

/-- The next step of s is an accepted START (R52). -/
def State.acceptsNext (s : State) : Prop :=
  s.busy = false ∧ ∃ v, s.writesNext 0x000 v ∧ v.getLsbD 8 = true ∧
    1 ≤ (v.extractLsb' 0 4).toNat ∧ (v.extractLsb' 0 4).toNat ≤ 5

/-- Two states that differ at most in what no host access reads, LOP, LA and LB (R28). -/
def State.sameButLatches (s t : State) : Prop :=
  s = { t with lop := s.lop, la := s.la, lb := s.lb }

/-- Two states with the same control: everything but the data registers, the flags a range check feeds, and the responses
(R90's untimed shadow). -/
def State.sameControl (s t : State) : Prop :=
  s.op = t.op ∧ s.ie = t.ie ∧ s.busy = t.busy ∧ s.done = t.done ∧ s.lop = t.lop ∧ s.events = t.events

/-- k steps of the machine, stopping at the first stop. -/
def runSteps : Nat → State → Result
  | 0, s => .next s
  | k + 1, s =>
    match step s with
    | .next t => runSteps k t
    | .fault f => .fault f
    | .refused r => .refused r

/-- What R58 to R62 each say of one command: its words (R46), its START turned away while BUSY = 1 (R53), its START accepted
(R52), and its completion (R55), for the opcode `op`, the range predicate `ok` and the value `v` on the latched operands. -/
def CommandMeaning (i : Bool → Instr) (op : OpBits) (ok : Nat → Nat → Prop) (v : Nat → Nat → Nat) : Prop :=
  (∀ ie, encode (i ie) = (if ie then 0x00010100 else 0x00000100) ||| op.setWidth 32 ∧
      decode (encode (i ie)) = .command (i ie)) ∧
  (∀ ie (s : State), s.busy = true →
      exec (i ie) s = .next { s with op := op, ie := ie, err := true, errcode := bif s.err then s.errcode else 0x3 }) ∧
  (∀ ie (s : State), s.busy = false →
      exec (i ie) s = .next { s with
        op := op, ie := ie, lop := op, la := s.opa, lb := s.opb
        done := false, err := false, errcode := 0x0, busy := true }) ∧
  (∀ s : State, s.completes → s.lop = op →
      (ok s.la.toNat s.lb.toNat → ∃ r : Reg, r.toNat = v s.la.toNat s.lb.toNat ∧
        step s = .next { s with events := s.events.tail, res := r, done := true, busy := false }) ∧
      (¬ ok s.la.toNat s.lb.toNat →
        step s = .next { s with
          events := s.events.tail, res := 0, done := true, busy := false
          err := true, errcode := bif s.err then s.errcode else 0x2 }))

end Sys2Proof.Machine
end

