-- ==== Sys2Proof/Certificates/Slice0/Obligations.lean ====
section
/-! DEFINITION. Certificates/Slice0/Obligations.lean: the statements for the provers. -/

open Sys2Proof Sys2Proof.Machine

/-! ## Encoding -/

/-- R46's ten command words, written out. -/
def Obligations.TableWordsDecode : Prop :=
  decode 0x00000101 = .command (.mmul false) ∧ decode 0x00010101 = .command (.mmul true) ∧
  decode 0x00000102 = .command (.msqr false) ∧ decode 0x00010102 = .command (.msqr true) ∧
  decode 0x00000103 = .command (.mredc false) ∧ decode 0x00010103 = .command (.mredc true) ∧
  decode 0x00000104 = .command (.tomont false) ∧ decode 0x00010104 = .command (.tomont true) ∧
  decode 0x00000105 = .command (.frommont false) ∧ decode 0x00010105 = .command (.frommont true) ∧
  decode 0x00000100 = .illegal 0x0 ∧ decode 0x0000010F = .illegal 0xF ∧ decode 0x00010005 = .noCommand

/-- R46: a CTRL word selects a mnemonic exactly when `w & mask = match`, its ten exact words are those of the encoder, and
the bits outside the mask never change which command is selected; with the round trip of decoder and encoder. -/
def Obligations.WordSelectsCommandExactlyByMask : Prop :=
  (∀ i : Instr, decode (encode i) = .command i) ∧
  (∀ (w : Word) (i : Instr), decode w = .command i ↔ w &&& 0x0001010F = encode i) ∧
  (∀ w : Word, (∃ ie, decode w = .command (.mmul ie)) ↔ w &&& 0x0000010F = 0x00000101) ∧
  (∀ w : Word, (∃ ie, decode w = .command (.msqr ie)) ↔ w &&& 0x0000010F = 0x00000102) ∧
  (∀ w : Word, (∃ ie, decode w = .command (.mredc ie)) ↔ w &&& 0x0000010F = 0x00000103) ∧
  (∀ w : Word, (∃ ie, decode w = .command (.tomont ie)) ↔ w &&& 0x0000010F = 0x00000104) ∧
  (∀ w : Word, (∃ ie, decode w = .command (.frommont ie)) ↔ w &&& 0x0000010F = 0x00000105) ∧
  encode (.mmul false) = 0x00000101 ∧ encode (.mmul true) = 0x00010101 ∧
  encode (.msqr false) = 0x00000102 ∧ encode (.msqr true) = 0x00010102 ∧
  encode (.mredc false) = 0x00000103 ∧ encode (.mredc true) = 0x00010103 ∧
  encode (.tomont false) = 0x00000104 ∧ encode (.tomont true) = 0x00010104 ∧
  encode (.frommont false) = 0x00000105 ∧ encode (.frommont true) = 0x00010105

/-- R48: the decoder, total on every word; bits 31:17, 15:9 and 7:4 play no part, and bit 16 is written to CTRL.IE whatever
the decode result. -/
def Obligations.DecoderIsTotalAndIgnoresReservedBits : Prop :=
  (∀ v : Word, v.getLsbD 8 = false → decode v = .noCommand) ∧
  (∀ v : Word, v.getLsbD 8 = true →
    (v.extractLsb' 0 4 = 0x1 → decode v = .command (.mmul (v.getLsbD 16))) ∧
    (v.extractLsb' 0 4 = 0x2 → decode v = .command (.msqr (v.getLsbD 16))) ∧
    (v.extractLsb' 0 4 = 0x3 → decode v = .command (.mredc (v.getLsbD 16))) ∧
    (v.extractLsb' 0 4 = 0x4 → decode v = .command (.tomont (v.getLsbD 16))) ∧
    (v.extractLsb' 0 4 = 0x5 → decode v = .command (.frommont (v.getLsbD 16))) ∧
    ((v.extractLsb' 0 4).toNat = 0 ∨ 6 ≤ (v.extractLsb' 0 4).toNat → decode v = .illegal (v.extractLsb' 0 4))) ∧
  (∀ v v' : Word, v &&& 0x0001010F = v' &&& 0x0001010F → decode v = decode v') ∧
  (∀ (s t : State) (v : Word), s.writesNext 0x000 v → step s = .next t → t.ie = v.getLsbD 16)

/-- When the next turn is the host's CTRL write of a word that decodes to a command, the step is that command's meaning on
the state with the turn taken and the write's response recorded. `withFetchWord` is the model's placing of such a write (log
entry 2). -/
def Obligations.StepRunsTheDecodedCommand : Prop :=
  (∀ (s : State) (es : List Event) (v : Word) (i : Instr),
    s.events = .host (.write 0x000 4 0xF v) :: es → decode v = .command i →
    step s = exec i { s with events := es, responses := .completes :: s.responses }) ∧
  (∀ (s : State) (v : Word) (i : Instr), decode v = .command i →
    decodeTableWord 32 v.toNat = some i ∧
    step (s.withFetchWord 32 v.toNat) = exec i { s with responses := .completes :: s.responses })

/-! ## The five commands -/

/-- R58: MMUL's words, START and completion; its corner cases and its example. -/
def Obligations.MmulMultipliesInMontgomeryForm : Prop :=
  CommandMeaning .mmul 0x1 (fun A B => A < Config.p ∧ B < Config.p) (fun A B => A * B * Config.Rinv % Config.p) ∧
  (∀ b, result .mmul 0 b = 0 ∧ result .mmul b 0 = 0) ∧
  (∀ b, b < Config.p → result .mmul Config.RmodP b = b ∧ result .mmul b Config.RmodP = b) ∧
  result .mmul (Config.p - 1) (Config.p - 1) = Config.Rinv ∧
  result .mmul (Config.p - 1) 1 = Config.p - Config.Rinv ∧
  (∀ b, inRange .mmul Config.p b = false ∧ inRange .mmul b Config.p = false ∧ inRange .mmul (2 ^ 384 - 1) b = false) ∧
  (∀ a b, result .mmul a a = result .msqr a b) ∧
  result .mmul
    0x11ebab9dbb81e28c6cf28d7901622c038b256521ed1f9bcb57605e0db0ddbb51b93c0018d6c40005321300000006554f
    0x0de0f8777c82e0857dde005a606d6b999e7c71f069ece0514f7823c40df41de886840025e97c0007ee1d00000009aaa1 =
    0x01c0df04bf85da70b0a058fe7d8f2a5bd881985be054ade337bf74e7253745acee5c004d21a40010223b00000013aa97

/-- R59: MSQR's words, START and completion; its corner cases and its example. -/
def Obligations.MsqrSquaresInMontgomeryForm : Prop :=
  CommandMeaning .msqr 0x2 (fun A _ => A < Config.p) (fun A _ => A * A * Config.Rinv % Config.p) ∧
  (∀ b, result .msqr 0 b = 0 ∧ result .msqr Config.RmodP b = Config.RmodP ∧
    result .msqr (Config.p - 1) b = Config.Rinv ∧ inRange .msqr Config.p b = false) ∧
  (∀ a b, result .msqr a b = result .mmul a a ∧ (a < Config.p → inRange .msqr a b = true)) ∧
  (∀ b, result .msqr
    0x05cb922afe84dc779fb4e61d1e83eac5c52a8b8d6387695d3fa7af30c820e316211400400eec000d6631000000105545 b =
    0x02f8c8ecbf1867bbd36cd6db5547e905755d6e3dfe1ffc12d7159952f1f3794a86b801419948004344f600000051ffae)

/-- R60: MREDC's words, START and completion; its corner cases and its example, T = (p − 1)². -/
def Obligations.MredcReducesTheWideValue : Prop :=
  CommandMeaning .mredc 0x3 (fun A B => B * 2 ^ 384 + A < Config.p * 2 ^ 384)
    (fun A B => (B * 2 ^ 384 + A) * Config.Rinv % Config.p) ∧
  (∀ A B, A < 2 ^ 384 → (B * 2 ^ 384 + A < Config.p * 2 ^ 384 ↔ B < Config.p)) ∧
  result .mredc 0 0 = 0 ∧ result .mredc 1 0 = Config.Rinv ∧ result .mredc Config.RmodP 0 = 1 ∧
  inRange .mredc (2 ^ 384 - 1) (Config.p - 1) = true ∧
  result .mredc (2 ^ 384 - 1) (Config.p - 1) = Config.p - Config.Rinv ∧
  inRange .mredc 0 Config.p = false ∧
  (∀ A B, A < 2 ^ 384 → (inRange .mredc A B = true ↔ B < Config.p)) ∧
  (∀ x y, x < Config.p → y < Config.p → result .mredc (x * y % 2 ^ 384) (x * y / 2 ^ 384) = result .mmul x y) ∧
  result .mredc ((Config.p - 1) ^ 2 % 2 ^ 384) ((Config.p - 1) ^ 2 / 2 ^ 384) =
    0x14fec701e8fb0ce9ed5e64273c4f538b1797ab1458a88de9343ea97914956dc87fe11274d898fafbf4d38259380b4820

/-- R61: TOMONT's words, START and completion; its equality with an MMUL, its corner cases and its example. -/
def Obligations.TomontEntersMontgomeryForm : Prop :=
  CommandMeaning .tomont 0x4 (fun A _ => A < Config.p) (fun A _ => A * 2 ^ 384 % Config.p) ∧
  (∀ a b, a < Config.p → result .tomont a b = result .mmul a Config.R2modP) ∧
  (∀ b, result .tomont 0 b = 0 ∧ result .tomont 1 b = Config.RmodP ∧
    result .tomont (Config.p - 1) b = Config.p - Config.RmodP ∧ inRange .tomont Config.p b = false ∧
    result .tomont 2 b =
      0x11ebab9dbb81e28c6cf28d7901622c038b256521ed1f9bcb57605e0db0ddbb51b93c0018d6c40005321300000006554f)

/-- R62: FROMMONT's words, START and completion; its equalities with an MMUL and an MREDC, its stricter check, its corner
cases and its example. -/
def Obligations.FrommontLeavesMontgomeryForm : Prop :=
  CommandMeaning .frommont 0x5 (fun A _ => A < Config.p) (fun A _ => A * Config.Rinv % Config.p) ∧
  (∀ a b, a < Config.p → result .frommont a b = result .mmul a 1 ∧ result .frommont a b = result .mredc a 0) ∧
  (∀ a b, (inRange .frommont a b = true ↔ a < Config.p) ∧ (a < 2 ^ 384 → inRange .mredc a 0 = true)) ∧
  (∀ b, result .frommont 0 b = 0 ∧ result .frommont Config.RmodP b = 1 ∧ result .frommont 1 b = Config.Rinv ∧
    result .frommont (Config.p - 1) b = Config.p - Config.Rinv ∧ inRange .frommont Config.p b = false ∧
    result .frommont
      0x01c0df04bf85da70b0a058fe7d8f2a5bd881985be054ade337bf74e7253745acee5c004d21a40010223b00000013aa97 b = 6)

/-- R7: R as the smallest power of 2^64 above p, the derived constants with their values, and R⁻¹ as the one integer in
[0, p) whose product with R is 1 modulo p. -/
def Obligations.RadixConstantsAreRight : Prop :=
  Config.R = 2 ^ 384 ∧ (∀ k : Nat, Config.p < (2 ^ 64) ^ k → Config.R ≤ (2 ^ 64) ^ k) ∧ Config.p < Config.R ∧
  Config.RmodP =
    0x15f65ec3fa80e4935c071a97a256ec6d77ce5853705257455f48985753c758baebf4000bc40c0002760900000002fffd ∧
  Config.R2modP =
    0x11988fe592cae3aa9a793e85b519952d67eb88a9939d83c08de5476c4c95b6d50a76e6a609d104f1f4df1f341c341746 ∧
  Config.Rinv =
    0x14fec701e8fb0ce9ed5e64273c4f538b1797ab1458a88de9343ea97914956dc87fe11274d898fafbf4d38259380b4820 ∧
  Config.RmodP = Config.R % Config.p ∧ Config.R2modP = Config.R * Config.R % Config.p ∧
  Config.Rinv < Config.p ∧ Config.R * Config.Rinv % Config.p = 1 ∧
  (∀ y, y < Config.p → Config.R * y % Config.p = 1 → y = Config.Rinv)

/-- The checks R6 reports on p, but for primality: its bit length, its form in the curve parameter, its residue and limbs. -/
def Obligations.ModulusHasTheReportedForm : Prop :=
  2 ^ 380 ≤ Config.p ∧ Config.p < 2 ^ 381 ∧ Config.p % 4 = 3 ∧
  (let x : Int := -0xd201000000010000
   (Config.p : Int) * 3 = (x - 1) ^ 2 * (x ^ 4 - x ^ 2 + 1) + 3 * x) ∧
  pLimbs = [0xb9feffffffffaaab, 0x1eabfffeb153ffff, 0x6730d2a0f6b0f624, 0x64774b84f38512bf, 0x4b1ba7b6434bacd7,
    0x1a0111ea397fe69a]

/-- R54: the range predicate of each command, and MREDC's equal to B < p. -/
def Obligations.RangePredicatesAsStated : Prop :=
  ∀ A B : Nat,
    (inRange .mmul A B = true ↔ A < Config.p ∧ B < Config.p) ∧
    (inRange .msqr A B = true ↔ A < Config.p) ∧
    (inRange .mredc A B = true ↔ B * 2 ^ 384 + A < Config.p * 2 ^ 384) ∧
    (inRange .tomont A B = true ↔ A < Config.p) ∧
    (inRange .frommont A B = true ↔ A < Config.p) ∧
    (A < 2 ^ 384 → (inRange .mredc A B = true ↔ B < Config.p))

/-- R64: the eleven laws, on canonical operands, with every result canonical. -/
def Obligations.MontgomeryLaws : Prop :=
  ∀ x y z a b : Nat, x < Config.p → y < Config.p → z < Config.p → a < Config.p → b < Config.p →
    let mmul := result .mmul
    let msqr := fun u => result .msqr u 0
    let tomont := fun u => result .tomont u 0
    let frommont := fun u => result .frommont u 0
    mmul x y = mmul y x ∧
    mmul (mmul x y) z = mmul x (mmul y z) ∧
    mmul x Config.RmodP = x ∧
    mmul x 0 = 0 ∧
    msqr x = mmul x x ∧
    tomont a = mmul a Config.R2modP ∧
    frommont x = mmul x 1 ∧
    frommont x = result .mredc x 0 ∧
    result .mredc (x * y % 2 ^ 384) (x * y / 2 ^ 384) = mmul x y ∧
    frommont (tomont a) = a ∧ tomont (frommont x) = x ∧
    mmul (tomont a) (tomont b) = tomont (a * b % Config.p) ∧
    (∀ op u v, result op u v < Config.p)

/-! ## START and completion -/

/-- R52, R53: a START request, in the step of its CTRL write: busy check, opcode check, acceptance; what each changes. -/
def Obligations.StartRequestAcceptsOrRejects : Prop :=
  ∀ (s : State) (es : List Event) (v : Word),
    s.events = .host (.write 0x000 4 0xF v) :: es → v.getLsbD 8 = true →
    let op := v.extractLsb' 0 4
    let w : State := { s with
      op := op, ie := v.getLsbD 16, events := es, responses := .completes :: s.responses }
    (s.busy = true → step s = .next { w with err := true, errcode := bif s.err then s.errcode else 0x3 }) ∧
    (s.busy = false → (op.toNat = 0 ∨ 6 ≤ op.toNat) →
      step s = .next { w with err := true, errcode := bif s.err then s.errcode else 0x1 }) ∧
    (s.busy = false → 1 ≤ op.toNat → op.toNat ≤ 5 →
      step s = .next { w with
        lop := op, la := s.opa, lb := s.opb, done := false, err := false, errcode := 0x0, busy := true })

/-- R21: a host write to CTRL stores OP and IE at any time, and with START = 1 makes the START request of the OP it carries in
the same step; with START = 0 it changes nothing else; a command in flight is not affected by it; a read returns OP and IE,
with START and the reserved bits 0, and both fields are 0 at reset. -/
def Obligations.CtrlWriteStoresOpAndIe : Prop :=
  (∀ (s : State) (es : List Event) (v : Word), s.events = .host (.write 0x000 4 0xF v) :: es →
    (v.getLsbD 8 = false → step s = .next { s with
      op := v.extractLsb' 0 4, ie := v.getLsbD 16, events := es, responses := .completes :: s.responses }) ∧
    (v.getLsbD 8 = true → step s = .next (State.startRequest { s with
      op := v.extractLsb' 0 4, ie := v.getLsbD 16, events := es, responses := .completes :: s.responses }
      (v.extractLsb' 0 4))) ∧
    (∃ t, step s = .next t ∧ t.op = v.extractLsb' 0 4 ∧ t.ie = v.getLsbD 16 ∧
      t.opa = s.opa ∧ t.opb = s.opb ∧ t.res = s.res ∧
      (s.busy = true → t.lop = s.lop ∧ t.la = s.la ∧ t.lb = s.lb ∧ t.busy = true))) ∧
  (∀ s : State, s.busRead 0x000 4 = .data (BitVec.ofNat 32 (s.ie.toNat * 2 ^ 16 + s.op.toNat))) ∧
  State.reset.op = 0x0 ∧ State.reset.ie = false

/-- R55: the completion step, enabled exactly when BUSY = 1, for every command in flight; it writes RES, DONE, BUSY and, on
a range failure, ERR and the first ERRCODE, and nothing else. -/
def Obligations.CompletionWritesResultAndFlags : Prop :=
  (∀ (s : State) (op : Opcode), s.completes → s.lop = op.bits →
    (inRange op s.la.toNat s.lb.toNat = true →
      step s = .next { s with
        events := s.events.tail, res := BitVec.ofNat 384 (result op s.la.toNat s.lb.toNat), done := true, busy := false }) ∧
    (inRange op s.la.toNat s.lb.toNat = false →
      step s = .next { s with
        events := s.events.tail, res := 0, done := true, busy := false
        err := true, errcode := bif s.err then s.errcode else 0x2 })) ∧
  (∀ s : State, s.engineNext → s.busy = false → step s = .next (s.withEvents s.events.tail))

/-- R56: whatever a completion writes to RES is canonical: the whole result when in range, 0 otherwise. -/
def Obligations.ResultWrittenIsCanonical : Prop :=
  ∀ (s t : State) (op : Opcode), s.completes → s.lop = op.bits → step s = .next t →
    t.res.toNat < Config.p ∧
    (inRange op s.la.toNat s.lb.toNat = true → t.res.toNat = result op s.la.toNat s.lb.toNat) ∧
    (inRange op s.la.toNat s.lb.toNat = false → t.res = 0)

/-- R57: what two completions write to RES, and whether they fail the range check, is the same whenever LOP, LA and LB are:
no other state has a part in it. -/
def Obligations.CompletionDependsOnLatchesOnly : Prop :=
  ∀ s t s' t' : State, s.completes → t.completes → s.lop = t.lop → s.la = t.la → s.lb = t.lb →
    step s = .next s' → step t = .next t' →
    s'.res = t'.res ∧ ∃ ok : Bool, s'.err = (s.err || !ok) ∧ t'.err = (t.err || !ok)

/-! ## Whole-machine rules -/

/-- R26 at reset. -/
def Obligations.InvariantHoldsAtReset : Prop := State.reset.Inv

/-- Every step keeps R26's invariants, from every state that meets them. -/
def Obligations.EveryStepKeepsTheInvariant : Prop :=
  ∀ s t : State, s.Inv → step s = .next t → t.Inv

/-- R26: every state reachable from reset under any order of turns meets the invariants, and the machine never stops. -/
def Obligations.ReachableStatesMeetTheInvariant : Prop :=
  ∀ (es : List Event) (k : Nat), ∃ t, runSteps k (State.reset.withEvents es) = .next t ∧ t.Inv

/-- The one stop (log entry 7, the model's reading of R26 (d)): a step faults exactly when it would complete a
command whose LOP names none, and never refuses. -/
def Obligations.StepStopsOnlyOnAnIllegalLatch : Prop :=
  (∀ (s : State) (f : Fault), step s = .fault f ↔
    s.completes ∧ (s.lop.toNat = 0 ∨ 6 ≤ s.lop.toNat) ∧ f = .latchedOpcodeIllegal s.lop) ∧
  (∀ (s : State) (r : Refusal), step s ≠ .refused r)

/-- R89's weak fairness in the form the model gives it (log entry 1, the model's choice): from every state that meets the
invariants, once the listed turns are over and one more step is taken, no command is in flight; and a command in flight
with no reset among the listed turns (R80 abandons it) completes within those steps, on the operands it latched. -/
def Obligations.EveryCommandCompletes : Prop :=
  ∀ s : State, s.Inv →
    (∃ t, runSteps (s.events.length + 1) s = .next t ∧ t.busy = false ∧ t.events = []) ∧
    (∀ op : Opcode, s.busy = true → s.lop = op.bits → .reset ∉ s.events →
      ∃ j u t, j ≤ s.events.length ∧ runSteps j s = .next u ∧ u.completes ∧ step u = .next t ∧
        t.busy = false ∧ t.done = true ∧
        t.res = (bif inRange op s.la.toNat s.lb.toNat then BitVec.ofNat 384 (result op s.la.toNat s.lb.toNat) else 0) ∧
        (inRange op s.la.toNat s.lb.toNat = false → t.err = true))

/-- R24: what sets and what clears each status flag, over every step. -/
def Obligations.FlagsChangeOnlyAsTheTableSays : Prop :=
  ∀ s t : State, step s = .next t →
    (s.acceptsNext → t.busy = true ∧ t.done = false ∧ t.err = false ∧ t.errcode = 0) ∧
    (s.busy = false → t.busy = true → s.acceptsNext) ∧
    (s.completes → t.busy = false ∧ t.done = true) ∧
    (s.busy = true → t.busy = false → s.completes ∨ s.resetNext) ∧
    (s.done = false → t.done = true → s.completes) ∧
    (s.done = true → t.done = false →
      s.acceptsNext ∨ s.resetNext ∨ ∃ v, s.writesNext 0x004 v ∧ v.getLsbD 1 = true) ∧
    (s.startsNext → ¬ s.acceptsNext → t.err = true) ∧
    (s.err = false → t.err = true →
      (s.startsNext ∧ ¬ s.acceptsNext) ∨
      (s.completes ∧ ∃ op : Opcode, s.lop = op.bits ∧ inRange op s.la.toNat s.lb.toNat = false)) ∧
    (s.err = true → t.err = false →
      s.acceptsNext ∨ s.resetNext ∨ ∃ v, s.writesNext 0x004 v ∧ v.getLsbD 2 = true) ∧
    (t.errcode ≠ s.errcode → (s.err = false ∧ t.err = true) ∨ (t.err = false ∧ t.errcode = 0))

/-- R15's "written by" column and R16, over every step: RES is written only by completion, OPA and OPB only by host writes to
their words, the latches only by an accepted START, CTRL only by host writes to it, each also by reset. -/
def Obligations.RegistersAreWrittenOnlyByTheirAgents : Prop :=
  ∀ s t : State, step s = .next t → ¬ s.resetNext →
    (t.res ≠ s.res → s.completes) ∧
    (t.opa ≠ s.opa → ∃ i v, i < 12 ∧ s.writesNext (0x100 + 4 * i) v ∧ t.opa = setWord s.opa i v) ∧
    (t.opb ≠ s.opb → ∃ i v, i < 12 ∧ s.writesNext (0x140 + 4 * i) v ∧ t.opb = setWord s.opb i v) ∧
    ((t.lop ≠ s.lop ∨ t.la ≠ s.la ∨ t.lb ≠ s.lb) → s.acceptsNext ∧ t.la = s.opa ∧ t.lb = s.opb) ∧
    ((t.op ≠ s.op ∨ t.ie ≠ s.ie) →
      ∃ v, s.writesNext 0x000 v ∧ t.op = v.extractLsb' 0 4 ∧ t.ie = v.getLsbD 16)

/-- R69 (b): while ERR stays 1, ERRCODE keeps the first error. -/
def Obligations.FirstErrorIsKept : Prop :=
  ∀ (k : Nat) (s t : State), s.err = true → runSteps k s = .next t →
    (∀ j u, j ≤ k → runSteps j s = .next u → u.err = true) → t.errcode = s.errcode

/-- The frame of every command word, in every state: it moves no operand or result register, no turn and no response, and
every byte of the window outside CTRL and STATUS reads as before. -/
def Obligations.CommandsLeaveTheOtherRegistersAlone : Prop :=
  ∀ (i : Instr) (s : State), ∃ t, exec i s = .next t ∧
    t.opa = s.opa ∧ t.opb = s.opb ∧ t.res = s.res ∧ t.events = s.events ∧ t.responses = s.responses ∧
    (s.busy = true → t.busy = true ∧ t.done = s.done ∧ t.lop = s.lop ∧ t.la = s.la ∧ t.lb = s.lb) ∧
    (∀ a, 8 ≤ a → t.windowByte a = s.windowByte a)

/-! ## The register window -/

/-- R35: every host read, of every size at every offset: the word, or a bus error; it changes no state, and two reads with
no step between them return the same. -/
def Obligations.BusReadReturnsTheRegisterWord : Prop :=
  (∀ (s : State) (es : List Event) (off sz : Nat), s.events = .host (.read off sz) :: es →
    ∃ r, step s = .next { s with events := es, responses := r :: s.responses } ∧
      ((sz ≠ 4 ∨ off % 4 ≠ 0) → r = .busError off) ∧
      (sz = 4 → off = 0x000 → r = .data (BitVec.ofNat 32 (s.ie.toNat * 2 ^ 16 + s.op.toNat))) ∧
      (sz = 4 → off = 0x004 → r = .data (BitVec.ofNat 32
        (s.errcode.toNat * 2 ^ 8 + s.err.toNat * 2 ^ 2 + s.done.toNat * 2 + s.busy.toNat))) ∧
      (∀ i, i < 12 → sz = 4 → off = 0x100 + 4 * i → r = .data (s.opa.extractLsb' (32 * i) 32)) ∧
      (∀ i, i < 12 → sz = 4 → off = 0x140 + 4 * i → r = .data (s.opb.extractLsb' (32 * i) 32)) ∧
      (∀ i, i < 12 → sz = 4 → off = 0x180 + 4 * i → r = .data (s.res.extractLsb' (32 * i) 32)) ∧
      ((8 ≤ off ∧ off < 0x100) ∨ (0x130 ≤ off ∧ off < 0x140) ∨ (0x170 ≤ off ∧ off < 0x180) ∨ 0x1B0 ≤ off →
        r = .busError off)) ∧
  (∀ (s : State) (es : List Event) (a : Nat) (sz : Nat),
    s.events = .host (.read a sz) :: .host (.read a sz) :: es →
    ∃ r, runSteps 2 s = .next { s with events := es, responses := r :: r :: s.responses })

/-- R36 but for the START of a CTRL write (R52): every host write, of every size at every offset with every byte enables. -/
def Obligations.BusWriteReachesOneRegister : Prop :=
  ∀ (s : State) (es : List Event) (off sz : Nat) (en : BitVec 4) (v : Word),
    s.events = .host (.write off sz en v) :: es →
    let w : State := { s with events := es, responses := .completes :: s.responses }
    let e : State := { s with events := es, responses := .busError off :: s.responses }
    ((sz ≠ 4 ∨ off % 4 ≠ 0 ∨ en ≠ 0xF) → step s = .next e) ∧
    (sz = 4 → en = 0xF →
      (off = 0x000 → v.getLsbD 8 = false →
        step s = .next { w with op := v.extractLsb' 0 4, ie := v.getLsbD 16 }) ∧
      (off = 0x004 → step s = .next { w with
        done := s.done && !v.getLsbD 1, err := s.err && !v.getLsbD 2
        errcode := if v.getLsbD 2 then 0 else s.errcode }) ∧
      (∀ i, i < 12 → off = 0x100 + 4 * i → ∃ x : Reg, step s = .next { w with opa := x } ∧
        ∀ j, j < 12 → x.extractLsb' (32 * j) 32 = if j = i then v else s.opa.extractLsb' (32 * j) 32) ∧
      (∀ i, i < 12 → off = 0x140 + 4 * i → ∃ x : Reg, step s = .next { w with opb := x } ∧
        ∀ j, j < 12 → x.extractLsb' (32 * j) 32 = if j = i then v else s.opb.extractLsb' (32 * j) 32) ∧
      (∀ i, i < 12 → off = 0x180 + 4 * i → step s = .next w) ∧
      ((8 ≤ off ∧ off < 0x100) ∨ (0x130 ≤ off ∧ off < 0x140) ∨ (0x170 ≤ off ∧ off < 0x180) ∨ 0x1B0 ≤ off →
        step s = .next e))

/-- R33 and R67's side of the block: an access that is not 32 bits wide, aligned, with all byte enables and at a register's
offset gets a bus error and changes no state, STATUS or `irq`; every other access gets none. -/
def Obligations.OnlyIllFormedAccessesGetABusError : Prop :=
  ∀ (s : State) (es : List Event) (a : Access), s.events = .host a :: es →
    (a.wellFormed = false → ∃ off t, step s = .next t ∧
      t = { s with events := es, responses := .busError off :: s.responses } ∧
      t.statusWord = s.statusWord ∧ t.irq = s.irq) ∧
    (a.wellFormed = true → ∃ t r, step s = .next t ∧ t.responses = r :: s.responses ∧ ∀ off, r ≠ .busError off)

/-- R23: a host write to STATUS clears what is 1 in bits 1 and 2, and a completion right after it still sets DONE. -/
def Obligations.StatusWriteClearsOnly : Prop :=
  (∀ (s : State) (es : List Event) (v : Word), s.events = .host (.write 0x004 4 0xF v) :: es →
    step s = .next { s with
      events := es, responses := .completes :: s.responses
      done := if v.getLsbD 1 then false else s.done
      err := if v.getLsbD 2 then false else s.err
      errcode := if v.getLsbD 2 then 0 else s.errcode }) ∧
  (∀ (s t : State) (es : List Event) (v : Word), s.busy = true →
    s.events = .host (.write 0x004 4 0xF v) :: .engine :: es → runSteps 2 s = .next t →
    t.done = true ∧ (∀ op : Opcode, s.lop = op.bits → inRange op s.la.toNat s.lb.toNat = false → t.err = true))

/-- R22, R21: every bit of the words that reads of STATUS and CTRL return; the reserved bits and START read 0. -/
def Obligations.StatusAndCtrlReadBits : Prop :=
  ∀ s : State,
    (∃ w, s.busRead 0x004 4 = .data w ∧ ∀ i, i < 32 → w.getLsbD i =
      (if i = 0 then s.busy else if i = 1 then s.done else if i = 2 then s.err
       else if 8 ≤ i ∧ i ≤ 11 then s.errcode.getLsbD (i - 8) else false)) ∧
    (∃ w, s.busRead 0x000 4 = .data w ∧ ∀ i, i < 32 → w.getLsbD i =
      (if i ≤ 3 then s.op.getLsbD i else if i = 16 then s.ie else false))

/-- Reserved and read-only bits of a written word have no effect (R21, R22, R49): two words that agree on OP, START and IE,
or on STATUS bits 1 and 2, do the same. -/
def Obligations.ReservedBitsOfAWriteHaveNoEffect : Prop :=
  ∀ (s : State) (es : List Event) (v v' : Word),
    (v &&& 0x0001010F = v' &&& 0x0001010F →
      step (s.withEvents (.host (.write 0x000 4 0xF v) :: es)) =
      step (s.withEvents (.host (.write 0x000 4 0xF v') :: es))) ∧
    (v &&& 0x00000006 = v' &&& 0x00000006 →
      step (s.withEvents (.host (.write 0x004 4 0xF v) :: es)) =
      step (s.withEvents (.host (.write 0x004 4 0xF v') :: es)))

/-- R14: Val(X) as the sum of its words, and the 768-bit input of MREDC. -/
def Obligations.ValueIsTheSumOfTheWords : Prop :=
  (∀ x : Reg, val x = ∑ i ∈ Finset.range 12, (getWord x i).toNat * 2 ^ (32 * i)) ∧
  (∀ a b : Reg, wide (val a) (val b) = (b ++ a).toNat)

/-- R32: little-endian: the byte at offset off + k is bits 8k+7 to 8k of the word, and the 48 bytes of a register in
ascending order are the little-endian byte string of its value. -/
def Obligations.WindowBytesAreLittleEndian : Prop :=
  (∀ (s : State) (off k : Nat) (w : Word), k < 4 → s.busRead off 4 = .data w →
    s.windowByte (off + k) = some (w.extractLsb' (8 * k) 8)) ∧
  (∀ (s : State) (j : Nat), j < 48 →
    s.windowByte (0x100 + j) = some (BitVec.ofNat 8 (s.opa.toNat / 2 ^ (8 * j))) ∧
    s.windowByte (0x140 + j) = some (BitVec.ofNat 8 (s.opb.toNat / 2 ^ (8 * j))) ∧
    s.windowByte (0x180 + j) = some (BitVec.ofNat 8 (s.res.toNat / 2 ^ (8 * j))))

/-- R13, R30, R37: the window is the 0x200 bytes at BASE, aligned, and a host access at BASE + off is the bus access at off,
for whatever BASE is; no other address reaches the block. -/
def Obligations.WindowLiesAtBase : Prop :=
  Config.base % 0x200 = 0 ∧
  (∀ (s : State) (off n : Nat) (v : Word), off < 0x200 →
    s.memRead (Config.base + off) n = some (s.busRead off n) ∧
    s.memWrite (Config.base + off) n v = some (s.busWrite off n 0xF v)) ∧
  (∀ (s : State) (addr n : Nat) (v : Word), (addr < Config.base ∨ Config.base + 0x200 ≤ addr) →
    s.memRead addr n = none ∧ s.memWrite addr n v = none)

/-! ## Reset and interrupt -/

/-- R80: reset is one atomic step that sets every item of R15 to its reset value; a command in flight is abandoned, with no
completion step after it, and `irq` is 0. That the turns to come and the responses so far stay is the model's choice (log
entry 11). -/
def Obligations.ResetAbandonsTheCommandInFlight : Prop :=
  ∀ (s : State) (es : List Event), s.events = .reset :: es →
    ∃ t : State, step s = .next t ∧
      t = { op := 0, ie := false, busy := false, done := false, err := false, errcode := 0, opa := 0, opb := 0, res := 0,
            lop := 0, la := 0, lb := 0, events := es, responses := s.responses } ∧
      t.irq = false ∧
      (∀ fs, es = .engine :: fs → step t = .next (t.withEvents fs))

/-- R81: the reset values, and what reads of CTRL and STATUS return after reset. -/
def Obligations.ResetValuesAsListed : Prop :=
  State.reset.op = 0x0 ∧ State.reset.ie = false ∧ State.reset.busy = false ∧ State.reset.done = false ∧
  State.reset.err = false ∧ State.reset.errcode = 0x0 ∧
  (∀ i, i < 12 → getWord State.reset.opa i = 0x00000000 ∧ getWord State.reset.opb i = 0x00000000 ∧
    getWord State.reset.res i = 0x00000000) ∧
  State.reset.lop = 0x0 ∧ State.reset.la = 0 ∧ State.reset.lb = 0 ∧ State.reset.irq = false ∧
  State.reset.busRead 0x000 4 = .data 0x00000000 ∧ State.reset.busRead 0x004 4 = .data 0x00000000

/-- R68: the interrupt output: its level, its pending condition as STATUS shows it, its mask, its clearing, and the line it drives. -/
def Obligations.IrqIsEnableAndDoneOrErr : Prop :=
  (∀ s : State, s.irq = true ↔ s.ie = true ∧ (s.done = true ∨ s.err = true)) ∧
  (∀ s : State, ∃ w, s.busRead 0x004 4 = .data w ∧ w.getLsbD 1 = s.done ∧ w.getLsbD 2 = s.err) ∧
  (∀ (s : State) (es : List Event) (v : Word), s.events = .host (.write 0x000 4 0xF v) :: es →
    v.getLsbD 8 = false → v.getLsbD 16 = false →
    ∃ t, step s = .next t ∧ t.irq = false ∧ t.done = s.done ∧ t.err = s.err) ∧
  (∀ (s : State) (es : List Event) (v : Word), s.events = .host (.write 0x004 4 0xF v) :: es →
    v.getLsbD 1 = true → v.getLsbD 2 = true → ∃ t, step s = .next t ∧ t.irq = false) ∧
  (∀ s t : State, s.acceptsNext ∨ s.resetNext → step s = .next t → t.irq = false) ∧
  (∀ (s : State) (line : Nat), s.irqOnLine line = true ↔ line = Config.irqLine ∧ s.irq = true) ∧
  State.reset.irq = false

/-- What moves `irq`, over every step: it rises only at a completion with IE = 1 or at a CTRL write that leaves IE = 1, and
falls only at a CTRL write that clears IE or is an accepted START, at a STATUS write that clears, or at reset. -/
def Obligations.IrqMovesOnlyForItsCauses : Prop :=
  ∀ s t : State, step s = .next t →
    (s.irq = false → t.irq = true →
      (s.completes ∧ s.ie = true) ∨ ∃ v, s.writesNext 0x000 v ∧ v.getLsbD 16 = true) ∧
    (s.irq = true → t.irq = false →
      s.acceptsNext ∨ s.resetNext ∨ (∃ v, s.writesNext 0x000 v ∧ v.getLsbD 16 = false) ∨
      ∃ v, s.writesNext 0x004 v ∧ (v.getLsbD 1 = true ∨ v.getLsbD 2 = true))

/-! ## Ordering and hazards -/

/-- R69 (d): a host transaction and then the completion, as in one clock cycle: a W1C of DONE leaves DONE = 1, a START is
rejected with 0x3 and does not disturb the command, and a STATUS read returns BUSY = 1. -/
def Obligations.HostThenCompletionInOneCycle : Prop :=
  ∀ (s : State) (es : List Event) (op : Opcode), s.busy = true → s.lop = op.bits →
    (∀ v : Word, s.events = .host (.write 0x004 4 0xF v) :: .engine :: es →
      ∃ t, runSteps 2 s = .next t ∧ t.done = true) ∧
    (∀ v : Word, s.events = .host (.write 0x000 4 0xF v) :: .engine :: es → v.getLsbD 8 = true → s.err = false →
      ∃ t, runSteps 2 s = .next t ∧ t.busy = false ∧ t.done = true ∧ t.err = true ∧ t.errcode = 0x3 ∧
        t.res = (bif inRange op s.la.toNat s.lb.toNat then BitVec.ofNat 384 (result op s.la.toNat s.lb.toNat) else 0)) ∧
    (s.events = .host (.read 0x004 4) :: .engine :: es →
      ∃ t w, runSteps 2 s = .next t ∧ t.responses = .data w :: s.responses ∧ w.getLsbD 0 = true)

/-- R28: while BUSY = 0 the latches have no effect on any future observation: two idle states that differ in the latches
alone run to states that differ in the latches at most, whatever turns follow, with the same responses. -/
def Obligations.IdleLatchesAreNeverObserved : Prop :=
  ∀ (k : Nat) (s t : State), s.sameButLatches t → s.busy = false →
    ∃ s' t', runSteps k s = .next s' ∧ runSteps k t = .next t' ∧ s'.sameButLatches t' ∧
      s'.responses = t'.responses ∧ s'.irq = t'.irq

/-- R84: a write of an operand word while a command is in flight does not reach that command: it commutes with the
completion. -/
def Obligations.OperandWriteCommutesWithCompletion : Prop :=
  ∀ (s : State) (es : List Event) (op : Opcode) (off : Nat) (v : Word), s.busy = true → s.lop = op.bits →
    ((0x100 ≤ off ∧ off ≤ 0x12C) ∨ (0x140 ≤ off ∧ off ≤ 0x16C)) → off % 4 = 0 →
    ∃ t, runSteps 2 (s.withEvents (.host (.write off 4 0xF v) :: .engine :: es)) = .next t ∧
      runSteps 2 (s.withEvents (.engine :: .host (.write off 4 0xF v) :: es)) = .next t

/-- R85: between completions RES keeps its value: over any run in which no step is a completion or reset, with a command in
flight or none; and any host transactions with a command in flight leave RES, BUSY and the latches, so that every read of RES
returns the previous result. -/
def Obligations.ResultIsStableWhileBusy : Prop :=
  (∀ (k : Nat) (s t : State), runSteps k s = .next t →
    (∀ j u, j < k → runSteps j s = .next u → ¬ u.completes ∧ ¬ u.resetNext) → t.res = s.res) ∧
  (∀ (as : List Access) (s : State) (es : List Event), s.busy = true → s.events = as.map .host ++ es →
    ∃ t, runSteps as.length s = .next t ∧ t.res = s.res ∧ t.busy = true ∧
      t.lop = s.lop ∧ t.la = s.la ∧ t.lb = s.lb ∧ t.events = es)

/-- R39: the place of the completion is free, and it matters: of two START words in a row, the second begins a command of
its own where the completion comes between them, and is rejected with 0x3 where it does not. -/
def Obligations.SecondStartDependsOnTheCompletion : Prop :=
  ∀ (s : State) (es : List Event) (i j : Instr), s.busy = false →
    (∃ t, runSteps 3 (s.withEvents (.host (ctrlAccess (encode i)) :: .engine :: .host (ctrlAccess (encode j)) :: es)) =
        .next t ∧ t.busy = true ∧ t.err = false ∧ t.errcode = 0 ∧ t.lop = j.opcode.bits) ∧
    (∃ t, runSteps 2 (s.withEvents (.host (ctrlAccess (encode i)) :: .host (ctrlAccess (encode j)) :: es)) =
        .next t ∧ t.busy = true ∧ t.err = true ∧ t.errcode = 3 ∧ t.lop = i.opcode.bits)

/-- R90's untimed shadow: operand values steer nothing but results and the range check: two states with the same control run
to states with the same control, step by step, whatever their data. -/
def Obligations.OperandsDoNotSteerControl : Prop :=
  ∀ (k : Nat) (s t s' : State), s.sameControl t → runSteps k s = .next s' →
    ∃ t', runSteps k t = .next t' ∧ s'.sameControl t'

/-! ## Host notation -/

/-- R51: `ld384` loads the value into the operand register, in twelve writes that complete. -/
def Obligations.Ld384LoadsTheOperand : Prop :=
  ∀ (s : State) (x : Reg),
    (HostNotation.ld384 HostNotation.OPA x.toNat).run (List.replicate 12 true) s =
      .next ({ s with opa := x, responses := List.replicate 12 .completes ++ s.responses }, .done ()) ∧
    (HostNotation.ld384 HostNotation.OPB x.toNat).run (List.replicate 12 true) s =
      .next ({ s with opb := x, responses := List.replicate 12 .completes ++ s.responses }, .done ())

/-- R51: `st384` reads the twelve words of OPA, OPB or RES, leaves the host their sum, which is the register's value, and
changes no state. -/
def Obligations.St384ReadsTheRegister : Prop :=
  ∀ (s : State) (reg : Nat) (x : Reg),
    (reg, x) ∈ [(HostNotation.OPA, s.opa), (HostNotation.OPB, s.opb), (HostNotation.RES, s.res)] →
    (HostNotation.st384 reg).run (List.replicate 12 true) s =
      .next ({ s with responses := ((List.range 12).map fun i => Response.data (getWord x i)).reverse ++ s.responses },
        .done x.toNat)

/-- R82: the sequence brings the block to a state whose every host-visible value equals its reset value, from every state
that meets the invariants and under every order of the host's transactions and the completions, which the schedule gives
(log entry 14); of the hidden state only LOP differs from its reset value: it holds 0x1. Some schedule ends the sequence. -/
def Obligations.SoftwareResetRestoresVisibleState : Prop :=
  ∀ s : State, s.Inv → s.events = [] →
    (∀ (sched : List Bool) (t : State), HostNotation.softwareReset.run sched s = .next (t, .done ()) →
      (∀ off sz, t.busRead off sz = State.reset.busRead off sz) ∧ t.irq = State.reset.irq ∧ t.busy = false ∧
      t.lop = 0x1 ∧ t.la = 0 ∧ t.lb = 0) ∧
    (∃ sched t, HostNotation.softwareReset.run sched s = .next (t, .done ()))

/-! ## The informative algorithm -/

/-- 40_montgomery.md section 5: the word-serial algorithm, which the spec gives as informative (92 D27; log entry 15), computes
MMUL's result for canonical operands. -/
def Obligations.CiosComputesTheMontgomeryProduct : Prop :=
  ∀ a b : Nat, a < Config.p → b < Config.p → montMulCios a b = result .mmul a b

/-- 40_montgomery.md section 5, informative (92 D27): for T < p·R the word-serial reduction stays below 2p before its one final
subtraction, which gives MREDC's result. `redcLoop`, on whole numbers, is the model's own form of what the section calls
"the reduction half of this loop" (log entry 15). -/
def Obligations.WordSerialReductionIsExact : Prop :=
  ∀ A B : Nat, A < 2 ^ 384 → inRange .mredc A B = true →
    redcLoop 6 (wide A B) < 2 * Config.p ∧ montRedcWords (wide A B) = result .mredc A B

/-! ## Host programs -/

/-- R51: one read of `wait` ends it exactly when BUSY = 0, and changes no state; under every schedule a `wait` begun with a
command in flight ends only after that command's completion, and it does end once the completion and one read have come,
after any number of reads. -/
def Obligations.WaitEndsAtTheFirstIdleRead : Prop :=
  (∀ s : State, HostNotation.wait.run [true] s = .next ({ s with responses := .data s.statusWord :: s.responses },
    if s.busy then HostNotation.wait else .done ())) ∧
  (∀ (s : State) (op : Opcode), s.busy = true → s.lop = op.bits → s.events = [] →
    (∀ (sched : List Bool) (t : State), HostNotation.wait.run sched s = .next (t, .done ()) →
      t.busy = false ∧ t.done = true ∧
      t.res = (bif inRange op s.la.toNat s.lb.toNat then BitVec.ofNat 384 (result op s.la.toNat s.lb.toNat) else 0)) ∧
    (∀ n : Nat, ∃ t, HostNotation.wait.run (List.replicate n true ++ [false, true]) s = .next (t, .done ())))

/-- R51, R46: each of the ten command notations is one write to CTRL that runs its command; `clr` clears DONE, ERR and
ERRCODE; `setie b` writes IE <- b and OP <- 0. -/
def Obligations.CommandNotationRunsTheCommand : Prop :=
  ∀ s : State,
    let w : State := { s with responses := .completes :: s.responses }
    (∀ c ∈ [(HostNotation.mmul, Instr.mmul false), (HostNotation.msqr, Instr.msqr false),
        (HostNotation.mredc, Instr.mredc false), (HostNotation.tomont, Instr.tomont false),
        (HostNotation.frommont, Instr.frommont false), (HostNotation.mmulIe, Instr.mmul true),
        (HostNotation.msqrIe, Instr.msqr true), (HostNotation.mredcIe, Instr.mredc true),
        (HostNotation.tomontIe, Instr.tomont true), (HostNotation.frommontIe, Instr.frommont true)],
      ∃ t, exec c.2 w = .next t ∧ c.1.run [true] s = .next (t, .done ())) ∧
    HostNotation.clr.run [true] s = .next ({ w with done := false, err := false, errcode := 0 }, .done ()) ∧
    (∀ b, (HostNotation.setie b).run [true] s = .next ({ w with op := 0, ie := b }, .done ()))

/-- R51: `mov384` writes to OPA or OPB the value RES held, with no command in flight, under every schedule; some schedule
ends it. -/
def Obligations.Mov384CopiesTheResult : Prop :=
  ∀ s : State, s.busy = false → s.events = [] →
    (∀ (sched : List Bool) (t : State),
      ((HostNotation.mov384 HostNotation.OPA).run sched s = .next (t, .done ()) →
        t = { s with opa := s.res, responses := t.responses }) ∧
      ((HostNotation.mov384 HostNotation.OPB).run sched s = .next (t, .done ()) →
        t = { s with opb := s.res, responses := t.responses })) ∧
    (∃ t, (HostNotation.mov384 HostNotation.OPA).run (List.replicate 24 true) s = .next (t, .done ())) ∧
    (∃ t, (HostNotation.mov384 HostNotation.OPB).run (List.replicate 24 true) s = .next (t, .done ()))

/-- R85: the sequence `cmd; wait; st384 RES` is free of the result-read hazard: from every state with no command in flight,
under every schedule, the host is left with the command's result on the operands the START found; some schedule ends it. -/
def Obligations.CommandWaitReadReturnsTheResult : Prop :=
  ∀ (s : State) (op : Opcode), s.busy = false → s.events = [] →
    let p := (HostNotation.cmd op.bits).seq (HostNotation.wait.seq (HostNotation.st384 HostNotation.RES))
    (∀ (sched : List Bool) (t : State) (h : Nat), p.run sched s = .next (t, .done h) →
      h = (bif inRange op s.opa.toNat s.opb.toNat then result op s.opa.toNat s.opb.toNat else 0) ∧
      t.done = true ∧ t.err = !inRange op s.opa.toNat s.opb.toNat) ∧
    (∃ sched t h, p.run sched s = .next (t, .done h))
end

