-- ==== Sys2Proof/Laws/Decode.lean ====
section
/-! SUPPORT. Laws/Decode.lean: the small lemmas of the opcode map and of the decoder's fields. -/

namespace Sys2Proof

namespace Machine.Opcode

@[simp] theorem ofBits_bits (op : Opcode) : Opcode.ofBits op.bits = some op := by cases op <;> rfl

theorem ofBits_eq_some {x : OpBits} {op : Opcode} : Opcode.ofBits x = some op ↔ x = op.bits := by
  revert x; cases op <;> decide

theorem ofBits_eq_none {x : OpBits} : Opcode.ofBits x = none ↔ x.toNat = 0 ∨ 6 ≤ x.toNat := by
  revert x; decide

/-- Every opcode field names a command or is reserved (R45). -/
theorem ofBits_cases (x : OpBits) :
    (∃ op : Opcode, x = op.bits) ∨ (x.toNat = 0 ∨ 6 ≤ x.toNat) := by
  cases h : Opcode.ofBits x with
  | none => exact .inr (ofBits_eq_none.mp h)
  | some op => exact .inl ⟨op, ofBits_eq_some.mp h⟩

theorem bits_range (op : Opcode) : 1 ≤ op.bits.toNat ∧ op.bits.toNat ≤ 5 := by cases op <;> decide

/-- The legal opcodes are 0x1 to 0x5 (R45). -/
theorem exists_bits_iff {x : OpBits} : (∃ op : Opcode, x = op.bits) ↔ 1 ≤ x.toNat ∧ x.toNat ≤ 5 := by
  constructor
  · rintro ⟨op, rfl⟩; exact bits_range op
  · intro h
    rcases ofBits_cases x with h' | h'
    · exact h'
    · omega

theorem bits_injective {a b : Opcode} (h : a.bits = b.bits) : a = b := by
  have := ofBits_bits a; rw [h, ofBits_bits] at this; exact (Option.some.inj this).symm

end Machine.Opcode

open Machine (Opcode)

@[simp] theorem Instr.ofOpcode_opcode (op : Opcode) (b : Bool) : (Instr.ofOpcode op b).opcode = op := by cases op <;> rfl
@[simp] theorem Instr.ofOpcode_ie (op : Opcode) (b : Bool) : (Instr.ofOpcode op b).ie = b := by cases op <;> rfl
@[simp] theorem Instr.ofOpcode_eta (i : Instr) : Instr.ofOpcode i.opcode i.ie = i := by cases i <;> rfl

/-- What `decode` answers, by START and OP (R48). -/
theorem decode_of_start {v : Word} {op : Opcode} (hs : ctrlStart v = true) (ho : ctrlOp v = op.bits) :
    decode v = .command (Instr.ofOpcode op (ctrlIe v)) := by
  simp [decode, hs, ho]

theorem decode_of_no_start {v : Word} (hs : ctrlStart v = false) : decode v = .noCommand := by
  simp [decode, hs]

theorem decode_of_reserved {v : Word} (hs : ctrlStart v = true) (ho : Opcode.ofBits (ctrlOp v) = none) :
    decode v = .illegal (ctrlOp v) := by
  simp [decode, hs, ho]

/-- A word that decodes to a command has START = 1 and that command's OP and IE. -/
theorem decode_command {v : Word} {i : Instr} (h : decode v = .command i) :
    ctrlStart v = true ∧ ctrlOp v = i.opcode.bits ∧ ctrlIe v = i.ie := by
  unfold decode at h
  split at h
  · split at h
    · rename_i hs _ op ho
      cases h
      exact ⟨hs, by simpa using Machine.Opcode.ofBits_eq_some.mp ho, by simp⟩
    · cases h
  · cases h

/-- The bytes of a word put together again are the word (R32). -/
theorem wordOfBytes_byteOfWord (w : Word) :
    wordOfBytes (byteOfWord w 0) (byteOfWord w 1) (byteOfWord w 2) (byteOfWord w 3) = w := by
  apply BitVec.eq_of_getLsbD_eq
  intro i hi
  simp only [wordOfBytes, byteOfWord, BitVec.getLsbD_append, BitVec.getLsbD_extractLsb']
  by_cases h1 : i < 8
  · simp [h1]
  by_cases h2 : i - 8 < 8
  · have e : 8 * 1 + (i - 8) = i := by omega
    rw [e]; simp [h1, h2]
  by_cases h3 : i - 8 - 8 < 8
  · have e : 8 * 2 + (i - 8 - 8) = i := by omega
    rw [e]; simp [h1, h2, h3]
  · have e : 8 * 3 + (i - 8 - 8 - 8) = i := by omega
    have h4 : i - 8 - 8 - 8 < 8 := by omega
    rw [e]; simp [h1, h2, h3, h4]

end Sys2Proof
end

