-- ==== Sys2Proof/Laws/State.lean ====
section
/-! SUPPORT. Laws/State.lean: what each named update of the state leaves in each field, so that no proof unfolds one. -/

namespace Sys2Proof.Machine.State

variable (s : State)

@[simp] theorem withEvents_op (es : List Event) : (s.withEvents es).op = s.op := rfl
@[simp] theorem withEvents_ie (es : List Event) : (s.withEvents es).ie = s.ie := rfl
@[simp] theorem withEvents_busy (es : List Event) : (s.withEvents es).busy = s.busy := rfl
@[simp] theorem withEvents_done (es : List Event) : (s.withEvents es).done = s.done := rfl
@[simp] theorem withEvents_err (es : List Event) : (s.withEvents es).err = s.err := rfl
@[simp] theorem withEvents_errcode (es : List Event) : (s.withEvents es).errcode = s.errcode := rfl
@[simp] theorem withEvents_opa (es : List Event) : (s.withEvents es).opa = s.opa := rfl
@[simp] theorem withEvents_opb (es : List Event) : (s.withEvents es).opb = s.opb := rfl
@[simp] theorem withEvents_res (es : List Event) : (s.withEvents es).res = s.res := rfl
@[simp] theorem withEvents_lop (es : List Event) : (s.withEvents es).lop = s.lop := rfl
@[simp] theorem withEvents_la (es : List Event) : (s.withEvents es).la = s.la := rfl
@[simp] theorem withEvents_lb (es : List Event) : (s.withEvents es).lb = s.lb := rfl
@[simp] theorem withEvents_events (es : List Event) : (s.withEvents es).events = es := rfl
@[simp] theorem withEvents_responses (es : List Event) : (s.withEvents es).responses = s.responses := rfl
@[simp] theorem withEvents_withEvents (es fs : List Event) : (s.withEvents es).withEvents fs = s.withEvents fs := rfl
@[simp] theorem withEvents_busRead (es : List Event) (off sz : Nat) : (s.withEvents es).busRead off sz = s.busRead off sz := rfl
@[simp] theorem respond_busRead (r : Response) (off sz : Nat) : (s.respond r).busRead off sz = s.busRead off sz := rfl

@[simp] theorem raiseErr_op (c : ErrCode) : (s.raiseErr c).op = s.op := rfl
@[simp] theorem raiseErr_ie (c : ErrCode) : (s.raiseErr c).ie = s.ie := rfl
@[simp] theorem raiseErr_busy (c : ErrCode) : (s.raiseErr c).busy = s.busy := rfl
@[simp] theorem raiseErr_done (c : ErrCode) : (s.raiseErr c).done = s.done := rfl
@[simp] theorem raiseErr_err (c : ErrCode) : (s.raiseErr c).err = true := rfl
@[simp] theorem raiseErr_errcode (c : ErrCode) : (s.raiseErr c).errcode = bif s.err then s.errcode else c := rfl
@[simp] theorem raiseErr_opa (c : ErrCode) : (s.raiseErr c).opa = s.opa := rfl
@[simp] theorem raiseErr_opb (c : ErrCode) : (s.raiseErr c).opb = s.opb := rfl
@[simp] theorem raiseErr_res (c : ErrCode) : (s.raiseErr c).res = s.res := rfl
@[simp] theorem raiseErr_lop (c : ErrCode) : (s.raiseErr c).lop = s.lop := rfl
@[simp] theorem raiseErr_la (c : ErrCode) : (s.raiseErr c).la = s.la := rfl
@[simp] theorem raiseErr_lb (c : ErrCode) : (s.raiseErr c).lb = s.lb := rfl
@[simp] theorem raiseErr_events (c : ErrCode) : (s.raiseErr c).events = s.events := rfl
@[simp] theorem raiseErr_responses (c : ErrCode) : (s.raiseErr c).responses = s.responses := rfl

@[simp] theorem reject_op (c : ErrCode) : (s.reject c).op = s.op := rfl
@[simp] theorem reject_ie (c : ErrCode) : (s.reject c).ie = s.ie := rfl
@[simp] theorem reject_busy (c : ErrCode) : (s.reject c).busy = s.busy := rfl
@[simp] theorem reject_done (c : ErrCode) : (s.reject c).done = s.done := rfl
@[simp] theorem reject_err (c : ErrCode) : (s.reject c).err = true := rfl
@[simp] theorem reject_errcode (c : ErrCode) : (s.reject c).errcode = bif s.err then s.errcode else c := rfl
@[simp] theorem reject_opa (c : ErrCode) : (s.reject c).opa = s.opa := rfl
@[simp] theorem reject_opb (c : ErrCode) : (s.reject c).opb = s.opb := rfl
@[simp] theorem reject_res (c : ErrCode) : (s.reject c).res = s.res := rfl
@[simp] theorem reject_lop (c : ErrCode) : (s.reject c).lop = s.lop := rfl
@[simp] theorem reject_la (c : ErrCode) : (s.reject c).la = s.la := rfl
@[simp] theorem reject_lb (c : ErrCode) : (s.reject c).lb = s.lb := rfl
@[simp] theorem reject_events (c : ErrCode) : (s.reject c).events = s.events := rfl
@[simp] theorem reject_responses (c : ErrCode) : (s.reject c).responses = s.responses := rfl

@[simp] theorem clearDone_op : (s.clearDone).op = s.op := rfl
@[simp] theorem clearDone_ie : (s.clearDone).ie = s.ie := rfl
@[simp] theorem clearDone_busy : (s.clearDone).busy = s.busy := rfl
@[simp] theorem clearDone_done : (s.clearDone).done = false := rfl
@[simp] theorem clearDone_err : (s.clearDone).err = s.err := rfl
@[simp] theorem clearDone_errcode : (s.clearDone).errcode = s.errcode := rfl
@[simp] theorem clearDone_opa : (s.clearDone).opa = s.opa := rfl
@[simp] theorem clearDone_opb : (s.clearDone).opb = s.opb := rfl
@[simp] theorem clearDone_res : (s.clearDone).res = s.res := rfl
@[simp] theorem clearDone_lop : (s.clearDone).lop = s.lop := rfl
@[simp] theorem clearDone_la : (s.clearDone).la = s.la := rfl
@[simp] theorem clearDone_lb : (s.clearDone).lb = s.lb := rfl
@[simp] theorem clearDone_events : (s.clearDone).events = s.events := rfl
@[simp] theorem clearDone_responses : (s.clearDone).responses = s.responses := rfl

@[simp] theorem clearErr_op : (s.clearErr).op = s.op := rfl
@[simp] theorem clearErr_ie : (s.clearErr).ie = s.ie := rfl
@[simp] theorem clearErr_busy : (s.clearErr).busy = s.busy := rfl
@[simp] theorem clearErr_done : (s.clearErr).done = s.done := rfl
@[simp] theorem clearErr_err : (s.clearErr).err = false := rfl
@[simp] theorem clearErr_errcode : (s.clearErr).errcode = 0x0 := rfl
@[simp] theorem clearErr_opa : (s.clearErr).opa = s.opa := rfl
@[simp] theorem clearErr_opb : (s.clearErr).opb = s.opb := rfl
@[simp] theorem clearErr_res : (s.clearErr).res = s.res := rfl
@[simp] theorem clearErr_lop : (s.clearErr).lop = s.lop := rfl
@[simp] theorem clearErr_la : (s.clearErr).la = s.la := rfl
@[simp] theorem clearErr_lb : (s.clearErr).lb = s.lb := rfl
@[simp] theorem clearErr_events : (s.clearErr).events = s.events := rfl
@[simp] theorem clearErr_responses : (s.clearErr).responses = s.responses := rfl

@[simp] theorem setCtrl_op (o : OpBits) (b : Bool) : (s.setCtrl o b).op = o := rfl
@[simp] theorem setCtrl_ie (o : OpBits) (b : Bool) : (s.setCtrl o b).ie = b := rfl
@[simp] theorem setCtrl_busy (o : OpBits) (b : Bool) : (s.setCtrl o b).busy = s.busy := rfl
@[simp] theorem setCtrl_done (o : OpBits) (b : Bool) : (s.setCtrl o b).done = s.done := rfl
@[simp] theorem setCtrl_err (o : OpBits) (b : Bool) : (s.setCtrl o b).err = s.err := rfl
@[simp] theorem setCtrl_errcode (o : OpBits) (b : Bool) : (s.setCtrl o b).errcode = s.errcode := rfl
@[simp] theorem setCtrl_opa (o : OpBits) (b : Bool) : (s.setCtrl o b).opa = s.opa := rfl
@[simp] theorem setCtrl_opb (o : OpBits) (b : Bool) : (s.setCtrl o b).opb = s.opb := rfl
@[simp] theorem setCtrl_res (o : OpBits) (b : Bool) : (s.setCtrl o b).res = s.res := rfl
@[simp] theorem setCtrl_lop (o : OpBits) (b : Bool) : (s.setCtrl o b).lop = s.lop := rfl
@[simp] theorem setCtrl_la (o : OpBits) (b : Bool) : (s.setCtrl o b).la = s.la := rfl
@[simp] theorem setCtrl_lb (o : OpBits) (b : Bool) : (s.setCtrl o b).lb = s.lb := rfl
@[simp] theorem setCtrl_events (o : OpBits) (b : Bool) : (s.setCtrl o b).events = s.events := rfl
@[simp] theorem setCtrl_responses (o : OpBits) (b : Bool) : (s.setCtrl o b).responses = s.responses := rfl

@[simp] theorem accept_op (o : OpBits) : (s.accept o).op = s.op := rfl
@[simp] theorem accept_ie (o : OpBits) : (s.accept o).ie = s.ie := rfl
@[simp] theorem accept_busy (o : OpBits) : (s.accept o).busy = true := rfl
@[simp] theorem accept_done (o : OpBits) : (s.accept o).done = false := rfl
@[simp] theorem accept_err (o : OpBits) : (s.accept o).err = false := rfl
@[simp] theorem accept_errcode (o : OpBits) : (s.accept o).errcode = 0x0 := rfl
@[simp] theorem accept_opa (o : OpBits) : (s.accept o).opa = s.opa := rfl
@[simp] theorem accept_opb (o : OpBits) : (s.accept o).opb = s.opb := rfl
@[simp] theorem accept_res (o : OpBits) : (s.accept o).res = s.res := rfl
@[simp] theorem accept_lop (o : OpBits) : (s.accept o).lop = o := rfl
@[simp] theorem accept_la (o : OpBits) : (s.accept o).la = s.opa := rfl
@[simp] theorem accept_lb (o : OpBits) : (s.accept o).lb = s.opb := rfl
@[simp] theorem accept_events (o : OpBits) : (s.accept o).events = s.events := rfl
@[simp] theorem accept_responses (o : OpBits) : (s.accept o).responses = s.responses := rfl

@[simp] theorem applyReset_op : (s.applyReset).op = 0 := rfl
@[simp] theorem applyReset_ie : (s.applyReset).ie = false := rfl
@[simp] theorem applyReset_busy : (s.applyReset).busy = false := rfl
@[simp] theorem applyReset_done : (s.applyReset).done = false := rfl
@[simp] theorem applyReset_err : (s.applyReset).err = false := rfl
@[simp] theorem applyReset_errcode : (s.applyReset).errcode = 0 := rfl
@[simp] theorem applyReset_opa : (s.applyReset).opa = 0 := rfl
@[simp] theorem applyReset_opb : (s.applyReset).opb = 0 := rfl
@[simp] theorem applyReset_res : (s.applyReset).res = 0 := rfl
@[simp] theorem applyReset_lop : (s.applyReset).lop = 0 := rfl
@[simp] theorem applyReset_la : (s.applyReset).la = 0 := rfl
@[simp] theorem applyReset_lb : (s.applyReset).lb = 0 := rfl
@[simp] theorem applyReset_events : (s.applyReset).events = s.events := rfl
@[simp] theorem applyReset_responses : (s.applyReset).responses = s.responses := rfl

@[simp] theorem setOpaWord_op (i : Nat) (w : Word) : (s.setOpaWord i w).op = s.op := rfl
@[simp] theorem setOpaWord_ie (i : Nat) (w : Word) : (s.setOpaWord i w).ie = s.ie := rfl
@[simp] theorem setOpaWord_busy (i : Nat) (w : Word) : (s.setOpaWord i w).busy = s.busy := rfl
@[simp] theorem setOpaWord_done (i : Nat) (w : Word) : (s.setOpaWord i w).done = s.done := rfl
@[simp] theorem setOpaWord_err (i : Nat) (w : Word) : (s.setOpaWord i w).err = s.err := rfl
@[simp] theorem setOpaWord_errcode (i : Nat) (w : Word) : (s.setOpaWord i w).errcode = s.errcode := rfl
@[simp] theorem setOpaWord_opa (i : Nat) (w : Word) : (s.setOpaWord i w).opa = setWord s.opa i w := rfl
@[simp] theorem setOpaWord_opb (i : Nat) (w : Word) : (s.setOpaWord i w).opb = s.opb := rfl
@[simp] theorem setOpaWord_res (i : Nat) (w : Word) : (s.setOpaWord i w).res = s.res := rfl
@[simp] theorem setOpaWord_lop (i : Nat) (w : Word) : (s.setOpaWord i w).lop = s.lop := rfl
@[simp] theorem setOpaWord_la (i : Nat) (w : Word) : (s.setOpaWord i w).la = s.la := rfl
@[simp] theorem setOpaWord_lb (i : Nat) (w : Word) : (s.setOpaWord i w).lb = s.lb := rfl
@[simp] theorem setOpaWord_events (i : Nat) (w : Word) : (s.setOpaWord i w).events = s.events := rfl
@[simp] theorem setOpaWord_responses (i : Nat) (w : Word) : (s.setOpaWord i w).responses = s.responses := rfl

@[simp] theorem setOpbWord_op (i : Nat) (w : Word) : (s.setOpbWord i w).op = s.op := rfl
@[simp] theorem setOpbWord_ie (i : Nat) (w : Word) : (s.setOpbWord i w).ie = s.ie := rfl
@[simp] theorem setOpbWord_busy (i : Nat) (w : Word) : (s.setOpbWord i w).busy = s.busy := rfl
@[simp] theorem setOpbWord_done (i : Nat) (w : Word) : (s.setOpbWord i w).done = s.done := rfl
@[simp] theorem setOpbWord_err (i : Nat) (w : Word) : (s.setOpbWord i w).err = s.err := rfl
@[simp] theorem setOpbWord_errcode (i : Nat) (w : Word) : (s.setOpbWord i w).errcode = s.errcode := rfl
@[simp] theorem setOpbWord_opa (i : Nat) (w : Word) : (s.setOpbWord i w).opa = s.opa := rfl
@[simp] theorem setOpbWord_opb (i : Nat) (w : Word) : (s.setOpbWord i w).opb = setWord s.opb i w := rfl
@[simp] theorem setOpbWord_res (i : Nat) (w : Word) : (s.setOpbWord i w).res = s.res := rfl
@[simp] theorem setOpbWord_lop (i : Nat) (w : Word) : (s.setOpbWord i w).lop = s.lop := rfl
@[simp] theorem setOpbWord_la (i : Nat) (w : Word) : (s.setOpbWord i w).la = s.la := rfl
@[simp] theorem setOpbWord_lb (i : Nat) (w : Word) : (s.setOpbWord i w).lb = s.lb := rfl
@[simp] theorem setOpbWord_events (i : Nat) (w : Word) : (s.setOpbWord i w).events = s.events := rfl
@[simp] theorem setOpbWord_responses (i : Nat) (w : Word) : (s.setOpbWord i w).responses = s.responses := rfl

@[simp] theorem respond_op (r : Response) : (s.respond r).op = s.op := rfl
@[simp] theorem respond_ie (r : Response) : (s.respond r).ie = s.ie := rfl
@[simp] theorem respond_busy (r : Response) : (s.respond r).busy = s.busy := rfl
@[simp] theorem respond_done (r : Response) : (s.respond r).done = s.done := rfl
@[simp] theorem respond_err (r : Response) : (s.respond r).err = s.err := rfl
@[simp] theorem respond_errcode (r : Response) : (s.respond r).errcode = s.errcode := rfl
@[simp] theorem respond_opa (r : Response) : (s.respond r).opa = s.opa := rfl
@[simp] theorem respond_opb (r : Response) : (s.respond r).opb = s.opb := rfl
@[simp] theorem respond_res (r : Response) : (s.respond r).res = s.res := rfl
@[simp] theorem respond_lop (r : Response) : (s.respond r).lop = s.lop := rfl
@[simp] theorem respond_la (r : Response) : (s.respond r).la = s.la := rfl
@[simp] theorem respond_lb (r : Response) : (s.respond r).lb = s.lb := rfl
@[simp] theorem respond_events (r : Response) : (s.respond r).events = s.events := rfl
@[simp] theorem respond_responses (r : Response) : (s.respond r).responses = r :: s.responses := rfl

@[simp] theorem finish_op (ok : Bool) (v : Nat) :
    (s.finish ok v).op = s.op := by
  cases ok <;> simp [finish]
@[simp] theorem finish_ie (ok : Bool) (v : Nat) :
    (s.finish ok v).ie = s.ie := by
  cases ok <;> simp [finish]
@[simp] theorem finish_busy (ok : Bool) (v : Nat) :
    (s.finish ok v).busy = (false) := by
  cases ok <;> simp [finish]
@[simp] theorem finish_done (ok : Bool) (v : Nat) :
    (s.finish ok v).done = (true) := by
  cases ok <;> simp [finish]
@[simp] theorem finish_err (ok : Bool) (v : Nat) :
    (s.finish ok v).err = (s.err || !ok) := by
  cases ok <;> simp [finish]
@[simp] theorem finish_errcode (ok : Bool) (v : Nat) :
    (s.finish ok v).errcode = (bif ok || s.err then s.errcode else operandRange) := by
  cases ok <;> simp [finish]
@[simp] theorem finish_opa (ok : Bool) (v : Nat) :
    (s.finish ok v).opa = s.opa := by
  cases ok <;> simp [finish]
@[simp] theorem finish_opb (ok : Bool) (v : Nat) :
    (s.finish ok v).opb = s.opb := by
  cases ok <;> simp [finish]
@[simp] theorem finish_res (ok : Bool) (v : Nat) :
    (s.finish ok v).res = (bif ok then BitVec.ofNat 384 v else 0) := by
  cases ok <;> simp [finish]
@[simp] theorem finish_lop (ok : Bool) (v : Nat) :
    (s.finish ok v).lop = s.lop := by
  cases ok <;> simp [finish]
@[simp] theorem finish_la (ok : Bool) (v : Nat) :
    (s.finish ok v).la = s.la := by
  cases ok <;> simp [finish]
@[simp] theorem finish_lb (ok : Bool) (v : Nat) :
    (s.finish ok v).lb = s.lb := by
  cases ok <;> simp [finish]
@[simp] theorem finish_events (ok : Bool) (v : Nat) :
    (s.finish ok v).events = s.events := by
  cases ok <;> simp [finish]
@[simp] theorem finish_responses (ok : Bool) (v : Nat) :
    (s.finish ok v).responses = s.responses := by
  cases ok <;> simp [finish]

@[simp] theorem statusWrite_op (v : Word) : (s.statusWrite v).op = s.op := by
  unfold statusWrite; cases v.getLsbD 1 <;> cases v.getLsbD 2 <;> simp
@[simp] theorem statusWrite_ie (v : Word) : (s.statusWrite v).ie = s.ie := by
  unfold statusWrite; cases v.getLsbD 1 <;> cases v.getLsbD 2 <;> simp
@[simp] theorem statusWrite_busy (v : Word) : (s.statusWrite v).busy = s.busy := by
  unfold statusWrite; cases v.getLsbD 1 <;> cases v.getLsbD 2 <;> simp
@[simp] theorem statusWrite_done (v : Word) : (s.statusWrite v).done = (s.done && !v.getLsbD 1) := by
  unfold statusWrite; cases v.getLsbD 1 <;> cases v.getLsbD 2 <;> simp
@[simp] theorem statusWrite_err (v : Word) : (s.statusWrite v).err = (s.err && !v.getLsbD 2) := by
  unfold statusWrite; cases v.getLsbD 1 <;> cases v.getLsbD 2 <;> simp
@[simp] theorem statusWrite_errcode (v : Word) : (s.statusWrite v).errcode = (if v.getLsbD 2 then 0x0 else s.errcode) := by
  unfold statusWrite; cases v.getLsbD 1 <;> cases v.getLsbD 2 <;> simp
@[simp] theorem statusWrite_opa (v : Word) : (s.statusWrite v).opa = s.opa := by
  unfold statusWrite; cases v.getLsbD 1 <;> cases v.getLsbD 2 <;> simp
@[simp] theorem statusWrite_opb (v : Word) : (s.statusWrite v).opb = s.opb := by
  unfold statusWrite; cases v.getLsbD 1 <;> cases v.getLsbD 2 <;> simp
@[simp] theorem statusWrite_res (v : Word) : (s.statusWrite v).res = s.res := by
  unfold statusWrite; cases v.getLsbD 1 <;> cases v.getLsbD 2 <;> simp
@[simp] theorem statusWrite_lop (v : Word) : (s.statusWrite v).lop = s.lop := by
  unfold statusWrite; cases v.getLsbD 1 <;> cases v.getLsbD 2 <;> simp
@[simp] theorem statusWrite_la (v : Word) : (s.statusWrite v).la = s.la := by
  unfold statusWrite; cases v.getLsbD 1 <;> cases v.getLsbD 2 <;> simp
@[simp] theorem statusWrite_lb (v : Word) : (s.statusWrite v).lb = s.lb := by
  unfold statusWrite; cases v.getLsbD 1 <;> cases v.getLsbD 2 <;> simp
@[simp] theorem statusWrite_events (v : Word) : (s.statusWrite v).events = s.events := by
  unfold statusWrite; cases v.getLsbD 1 <;> cases v.getLsbD 2 <;> simp
@[simp] theorem statusWrite_responses (v : Word) : (s.statusWrite v).responses = s.responses := by
  unfold statusWrite; cases v.getLsbD 1 <;> cases v.getLsbD 2 <;> simp

/-- Two states are equal when their fields are. -/
theorem eq_of_fields {s t : State} (h1 : s.op = t.op) (h2 : s.ie = t.ie) (h3 : s.busy = t.busy) (h4 : s.done = t.done)
    (h5 : s.err = t.err) (h6 : s.errcode = t.errcode) (h7 : s.opa = t.opa) (h8 : s.opb = t.opb) (h9 : s.res = t.res)
    (h10 : s.lop = t.lop) (h11 : s.la = t.la) (h12 : s.lb = t.lb) (h13 : s.events = t.events)
    (h14 : s.responses = t.responses) : s = t := by
  cases s; cases t; simp_all

end Sys2Proof.Machine.State
end

