-- ==== Sys2Proof/Laws/Ops.lean ====
section
/-! SUPPORT. Laws/Ops.lean: for each shared operation, one lemma that says once everything it can do. -/

namespace Sys2Proof.Machine

namespace State

/-- A START request rejects for BUSY, rejects for the opcode, or accepts (R52). -/
theorem startRequest_cases (s : State) (x : OpBits) :
    (s.busy = true ∧ s.startRequest x = s.reject startBusy) ∨
    (s.busy = false ∧ Opcode.ofBits x = none ∧ s.startRequest x = s.reject illegalOp) ∨
    (s.busy = false ∧ (∃ op : Opcode, x = op.bits) ∧ s.startRequest x = s.accept x) := by
  unfold startRequest
  cases hb : s.busy
  · cases ho : Opcode.ofBits x with
    | none => simp
    | some op => exact .inr (.inr ⟨rfl, ⟨op, Opcode.ofBits_eq_some.mp ho⟩, by simp⟩)
  · simp

theorem startCommand_of_busy {s : State} (h : s.busy = true) (x : OpBits) (b : Bool) :
    s.startCommand x b = (s.setCtrl x b).reject startBusy := by
  simp [startCommand, startRequest, h]

theorem startCommand_of_reserved {s : State} (h : s.busy = false) {x : OpBits} (hx : Opcode.ofBits x = none) (b : Bool) :
    s.startCommand x b = (s.setCtrl x b).reject illegalOp := by
  simp [startCommand, startRequest, h, hx]

theorem startCommand_of_legal {s : State} (h : s.busy = false) (op : Opcode) (b : Bool) :
    s.startCommand op.bits b = (s.setCtrl op.bits b).accept op.bits := by
  simp [startCommand, startRequest, h]

/-- A completion writes what `finish` writes, for the command LOP names (R55). -/
theorem complete_of_legal {s : State} {op : Opcode} (h : s.lop = op.bits) :
    s.complete = .next (s.finish (inRange op (val s.la) (val s.lb)) (result op (val s.la) (val s.lb))) := by
  simp [complete, h]

/-- A completion either is that of a legal opcode, or stops on an illegal one. -/
theorem complete_cases (s : State) :
    (∃ op : Opcode, s.lop = op.bits ∧
      s.complete = .next (s.finish (inRange op (val s.la) (val s.lb)) (result op (val s.la) (val s.lb)))) ∨
    (Opcode.ofBits s.lop = none ∧ s.complete = .fault (.latchedOpcodeIllegal s.lop)) := by
  cases h : Opcode.ofBits s.lop with
  | none => exact .inr ⟨rfl, by simp [complete, h]⟩
  | some op => exact .inl ⟨op, Opcode.ofBits_eq_some.mp h, complete_of_legal (Opcode.ofBits_eq_some.mp h)⟩

end State

/-- Every arm of `exec` is the CTRL write with START = 1 of its own opcode. -/
theorem exec_eq (i : Instr) (s : State) : exec i s = .next (s.startCommand i.opcode.bits i.ie) := by
  cases i <;> rfl

namespace State

/-- A CTRL write (R21): OP and IE, and the START request when bit 8 is 1. -/
theorem ctrlWrite_eq (s : State) (v : Word) :
    s.ctrlWrite v = .next (if ctrlStart v then s.startCommand (ctrlOp v) (ctrlIe v) else s.setCtrl (ctrlOp v) (ctrlIe v)) := by
  unfold ctrlWrite
  cases hs : ctrlStart v
  · simp [decode_of_no_start hs]
  · cases ho : Opcode.ofBits (ctrlOp v) with
    | none => simp [decode_of_reserved hs ho]
    | some op =>
      have h := Opcode.ofBits_eq_some.mp ho
      simp [decode_of_start hs h, exec_eq, h]

/-- Everything a host write can do (R36). -/
theorem busWrite_cases (s : State) (off sz : Nat) (en : BitVec 4) (v : Word) :
    ((sz = 4 → en = 0xF → off ≠ 0x000 ∧ off ≠ 0x004) ∧ s.busWrite off sz en v = .next (s.respond (.busError off))) ∨
    (sz = 4 ∧ en = 0xF ∧
      ((off = 0x000 ∧ ctrlStart v = false ∧
          s.busWrite off sz en v = .next ((s.respond .completes).setCtrl (ctrlOp v) (ctrlIe v))) ∨
       (off = 0x000 ∧ ctrlStart v = true ∧
          s.busWrite off sz en v = .next ((s.respond .completes).startCommand (ctrlOp v) (ctrlIe v))) ∨
       (off = 0x004 ∧ s.busWrite off sz en v = .next ((s.respond .completes).statusWrite v)) ∨
       (∃ i, i < 12 ∧ off = 0x100 + 4 * i ∧ s.busWrite off sz en v = .next ((s.respond .completes).setOpaWord i v)) ∨
       (∃ i, i < 12 ∧ off = 0x140 + 4 * i ∧ s.busWrite off sz en v = .next ((s.respond .completes).setOpbWord i v)) ∨
       (∃ i, i < 12 ∧ off = 0x180 + 4 * i ∧ s.busWrite off sz en v = .next (s.respond .completes)))) := by
  by_cases h0 : sz ≠ 4 ∨ off % 4 ≠ 0 ∨ en ≠ 0xF
  · exact .inl ⟨fun a b => ⟨by rintro rfl; simp [a, b] at h0, by rintro rfl; simp [a, b] at h0⟩, by rw [busWrite, if_pos h0]⟩
  have hsz : sz = 4 := by by_contra h; exact h0 (.inl h)
  have hal : off % 4 = 0 := by by_contra h; exact h0 (.inr (.inl h))
  have hen : en = 0xF := by by_contra h; exact h0 (.inr (.inr h))
  by_cases h1 : off = 0x000
  · refine .inr ⟨hsz, hen, ?_⟩
    have e : s.busWrite off sz en v = (s.respond .completes).ctrlWrite v := by rw [busWrite, if_neg h0, if_pos h1]
    rw [e, ctrlWrite_eq]
    cases hs : ctrlStart v
    · exact .inl ⟨h1, rfl, by simp⟩
    · exact .inr (.inl ⟨h1, rfl, by simp⟩)
  by_cases h2 : off = 0x004
  · exact .inr ⟨hsz, hen, .inr (.inr (.inl ⟨h2, by rw [busWrite, if_neg h0, if_neg h1, if_pos h2]⟩))⟩
  by_cases h3 : 0x100 ≤ off ∧ off ≤ 0x12C
  · exact .inr ⟨hsz, hen, .inr (.inr (.inr (.inl ⟨(off - 0x100) / 4, by omega, by omega,
      by rw [busWrite, if_neg h0, if_neg h1, if_neg h2, if_pos h3]⟩)))⟩
  by_cases h4 : 0x140 ≤ off ∧ off ≤ 0x16C
  · exact .inr ⟨hsz, hen, .inr (.inr (.inr (.inr (.inl ⟨(off - 0x140) / 4, by omega, by omega,
      by rw [busWrite, if_neg h0, if_neg h1, if_neg h2, if_neg h3, if_pos h4]⟩))))⟩
  by_cases h5 : 0x180 ≤ off ∧ off ≤ 0x1AC
  · exact .inr ⟨hsz, hen, .inr (.inr (.inr (.inr (.inr ⟨(off - 0x180) / 4, by omega, by omega,
      by rw [busWrite, if_neg h0, if_neg h1, if_neg h2, if_neg h3, if_neg h4, if_pos h5]⟩))))⟩
  exact .inl ⟨fun _ _ => ⟨h1, h2⟩, by rw [busWrite, if_neg h0, if_neg h1, if_neg h2, if_neg h3, if_neg h4, if_neg h5]⟩

end State
end Sys2Proof.Machine
end

