-- ==== Sys2Proof/Laws/Step.lean ====
section
/-! SUPPORT. Laws/Step.lean: what one step can do, said once; runs of several steps. -/

namespace Sys2Proof.Machine

theorem step_silent {s : State} (h : s.events = []) : step s = s.engineTurn := by
  simp [step, State.nextTurn, h]

theorem step_engine {s : State} {es : List Event} (h : s.events = .engine :: es) :
    step s = (s.withEvents es).engineTurn := by
  simp [step, State.nextTurn, State.turn, h]

theorem step_reset {s : State} {es : List Event} (h : s.events = .reset :: es) :
    step s = .next (s.withEvents es).applyReset := by
  simp [step, State.nextTurn, State.turn, h]

theorem step_read {s : State} {es : List Event} {off sz : Nat} (h : s.events = .host (.read off sz) :: es) :
    step s = .next ((s.withEvents es).respond (s.busRead off sz)) := by
  simp [step, State.nextTurn, State.turn, State.access, h]

theorem step_write {s : State} {es : List Event} {off sz : Nat} {en : BitVec 4} {v : Word}
    (h : s.events = .host (.write off sz en v) :: es) :
    step s = (s.withEvents es).busWrite off sz en v := by
  simp [step, State.nextTurn, State.turn, State.access, h]

theorem step_ctrl {s : State} {es : List Event} {v : Word} (h : s.events = .host (.write 0x000 4 0xF v) :: es) :
    step s = ((s.withEvents es).respond .completes).ctrlWrite v := by
  rw [step_write h]; simp [State.busWrite]

theorem step_status {s : State} {es : List Event} {v : Word} (h : s.events = .host (.write 0x004 4 0xF v) :: es) :
    step s = .next (((s.withEvents es).respond .completes).statusWrite v) := by
  rw [step_write h]; simp [State.busWrite]

theorem step_engineNext {s : State} (h : s.engineNext) : step s = (s.withEvents s.events.tail).engineTurn := by
  rcases h with h | ⟨es, h⟩
  · rw [step_silent h, h]; congr 1; cases s; simp_all [State.withEvents]
  · rw [step_engine h, h]; rfl

/-- The engine's turn with nothing in flight changes nothing. -/
theorem step_idle {s : State} (h : s.engineNext) (hb : s.busy = false) :
    step s = .next (s.withEvents s.events.tail) := by
  rw [step_engineNext h]; simp [State.engineTurn, hb]

/-- The engine's turn with a command in flight is its completion. -/
theorem step_completes {s : State} (h : s.completes) : step s = (s.withEvents s.events.tail).complete := by
  rw [step_engineNext h.2, State.engineTurn]
  exact if_pos h.1

/-- A completion (R55), for a command in flight that LOP names. -/
theorem step_complete {s : State} {op : Opcode} (h : s.completes) (ho : s.lop = op.bits) :
    step s = .next ((s.withEvents s.events.tail).finish
      (inRange op (val s.la) (val s.lb)) (result op (val s.la) (val s.lb))) := by
  rw [step_completes h]
  exact State.complete_of_legal (s := s.withEvents s.events.tail) ho

/-- Everything one step can do when it answers a next state. -/
theorem step_cases {s t : State} (h : step s = .next t) :
    (s.engineNext ∧ s.busy = false ∧ t = s.withEvents s.events.tail) ∨
    (s.completes ∧ ∃ op : Opcode, s.lop = op.bits ∧
      t = (s.withEvents s.events.tail).finish (inRange op (val s.la) (val s.lb)) (result op (val s.la) (val s.lb))) ∨
    (∃ es, s.events = .reset :: es ∧ t = (s.withEvents es).applyReset) ∨
    (∃ a es r, s.events = .host a :: es ∧ (∀ off v, a = .write off 4 0xF v → off ≠ 0x000 ∧ off ≠ 0x004) ∧
      t = (s.withEvents es).respond r) ∨
    (∃ v es, s.events = .host (.write 0x000 4 0xF v) :: es ∧ ctrlStart v = false ∧
      t = ((s.withEvents es).respond .completes).setCtrl (ctrlOp v) (ctrlIe v)) ∨
    (∃ v es, s.events = .host (.write 0x000 4 0xF v) :: es ∧ ctrlStart v = true ∧
      t = ((s.withEvents es).respond .completes).startCommand (ctrlOp v) (ctrlIe v)) ∨
    (∃ v es, s.events = .host (.write 0x004 4 0xF v) :: es ∧ t = ((s.withEvents es).respond .completes).statusWrite v) ∨
    (∃ i v es, i < 12 ∧ s.events = .host (.write (0x100 + 4 * i) 4 0xF v) :: es ∧
      t = ((s.withEvents es).respond .completes).setOpaWord i v) ∨
    (∃ i v es, i < 12 ∧ s.events = .host (.write (0x140 + 4 * i) 4 0xF v) :: es ∧
      t = ((s.withEvents es).respond .completes).setOpbWord i v) := by
  have engine : s.engineNext →
      (s.busy = false ∧ t = s.withEvents s.events.tail) ∨ (s.completes ∧ ∃ op : Opcode, s.lop = op.bits ∧
      t = (s.withEvents s.events.tail).finish (inRange op (val s.la) (val s.lb)) (result op (val s.la) (val s.lb))) := by
    intro he
    rcases Bool.eq_false_or_eq_true s.busy with hb | hb
    rotate_left
    · rw [step_idle he hb] at h; cases h; exact .inl ⟨hb, rfl⟩
    · refine .inr ⟨⟨hb, he⟩, ?_⟩
      rw [step_completes ⟨hb, he⟩] at h
      rcases State.complete_cases (s.withEvents s.events.tail) with ⟨op, ho, e⟩ | ⟨_, e⟩
      · rw [e] at h; cases h; exact ⟨op, ho, rfl⟩
      · rw [e] at h; cases h
  cases hs : s.events with
  | nil =>
    have he : s.engineNext := .inl hs
    rw [← hs]
    rcases engine he with h | h
    · exact .inl ⟨he, h⟩
    · exact .inr (.inl h)
  | cons e es =>
    cases e with
    | engine =>
      have he : s.engineNext := .inr ⟨es, hs⟩
      rw [← hs]
      rcases engine he with h | h
      · exact .inl ⟨he, h⟩
      · exact .inr (.inl h)
    | reset =>
      rw [step_reset hs] at h; cases h
      exact .inr (.inr (.inl ⟨es, rfl, rfl⟩))
    | host a =>
      refine .inr (.inr (.inr ?_))
      cases a with
      | read off sz => rw [step_read hs] at h; cases h; exact .inl ⟨_, es, _, rfl, fun _ _ h => (by cases h), rfl⟩
      | write off sz en v =>
        rw [step_write hs] at h
        rcases State.busWrite_cases (s.withEvents es) off sz en v with ⟨hn, e⟩ | ⟨rfl, rfl, c⟩
        · rw [e] at h; cases h
          exact .inl ⟨_, es, _, rfl, fun _ _ h => (by cases h; exact hn rfl rfl), rfl⟩
        rcases c with ⟨rfl, hv, e⟩ | ⟨rfl, hv, e⟩ | ⟨rfl, e⟩ | ⟨i, hi, rfl, e⟩ | ⟨i, hi, rfl, e⟩ | ⟨i, hi, rfl, e⟩ <;>
          rw [e] at h <;> cases h
        · exact .inr (.inl ⟨v, es, rfl, hv, rfl⟩)
        · exact .inr (.inr (.inl ⟨v, es, rfl, hv, rfl⟩))
        · exact .inr (.inr (.inr (.inl ⟨v, es, rfl, rfl⟩)))
        · exact .inr (.inr (.inr (.inr (.inl ⟨i, v, es, hi, rfl, rfl⟩))))
        · exact .inr (.inr (.inr (.inr (.inr ⟨i, v, es, hi, rfl, rfl⟩))))
        · exact .inl ⟨_, es, _, rfl, fun _ _ h => (by cases h; omega), rfl⟩

/-- Every host turn answers a next state. -/
theorem step_host_next {s : State} {a : Access} {es : List Event} (h : s.events = .host a :: es) : ∃ t, step s = .next t := by
  cases a with
  | read off sz => exact ⟨_, step_read h⟩
  | write off sz en v =>
    rw [step_write h]
    rcases State.busWrite_cases (s.withEvents es) off sz en v with ⟨_, e⟩ | ⟨_, _, c⟩
    · exact ⟨_, e⟩
    · rcases c with ⟨_, _, e⟩ | ⟨_, _, e⟩ | ⟨_, e⟩ | ⟨_, _, _, e⟩ | ⟨_, _, _, e⟩ | ⟨_, _, _, e⟩ <;> exact ⟨_, e⟩

theorem runSteps_succ {k : Nat} {s t : State} (h : step s = .next t) : runSteps (k + 1) s = runSteps k t := by
  simp [runSteps, h]

@[simp] theorem runSteps_zero (s : State) : runSteps 0 s = .next s := rfl

theorem runSteps_two {s t u : State} (h : step s = .next t) (h' : step t = .next u) : runSteps 2 s = .next u := by
  rw [runSteps_succ h, runSteps_succ h', runSteps_zero]

/-- A run of j + k steps is a run of j steps and then a run of k. -/
theorem runSteps_add {j k : Nat} {s t : State} (h : runSteps j s = .next t) : runSteps (j + k) s = runSteps k t := by
  induction j generalizing s with
  | zero => cases h; simp
  | succ j ih =>
    rw [Nat.succ_add]
    cases hs : step s with
    | next u => rw [runSteps_succ hs] at h ⊢; exact ih h
    | fault f => simp [runSteps, hs] at h
    | refused r => simp [runSteps, hs] at h

/-- The host interface's run, by the outcome of the first step. -/
theorem core_run_next (M : Host.Core) {k : Nat} {s t : M.State} (h : M.step s = .next t) :
    M.run (k + 1) s = M.run k t := by
  simp [Host.Core.run, h]

theorem core_run_fault (M : Host.Core) {k : Nat} {s : M.State} {f : M.Fault} (h : M.step s = .fault f) :
    M.run (k + 1) s = .fault f := by
  simp [Host.Core.run, h]

theorem core_run_refused (M : Host.Core) {k : Nat} {s : M.State} {r : M.Refusal} (h : M.step s = .refused r) :
    M.run (k + 1) s = .refused r := by
  simp [Host.Core.run, h]

/-- The model's run is the host interface's run. -/
theorem runSteps_eq_core_run (k : Nat) (s : State) : runSteps k s = Host.Core.run Sys2Proof.core k s := by
  induction k generalizing s with
  | zero => rfl
  | succ k ih =>
    cases hs : step s with
    | next t => exact (runSteps_succ hs).trans ((ih t).trans (core_run_next Sys2Proof.core hs).symm)
    | fault f => exact (by simp [runSteps, hs] : runSteps (k + 1) s = .fault f).trans (core_run_fault Sys2Proof.core hs).symm
    | refused r =>
      exact (by simp [runSteps, hs] : runSteps (k + 1) s = .refused r).trans (core_run_refused Sys2Proof.core hs).symm

end Sys2Proof.Machine
end

