-- ==== Sys2Proof/Laws/Words.lean ====
section
/-! SUPPORT. Laws/Words.lean: the words of a 384-bit register (R12). -/

namespace Sys2Proof.Machine

theorem getLsbD_setWord (x : Reg) (i : Nat) (w : Word) (k : Nat) (hk : k < 384) :
    (setWord x i w).getLsbD k =
      if 32 * i ≤ k ∧ k < 32 * i + 32 then w.getLsbD (k - 32 * i) else x.getLsbD k := by
  have ones : ∀ m, m < 384 → (0xFFFFFFFF : Reg).getLsbD m = decide (m < 32) := by
    intro m hm
    have e : (0xFFFFFFFF : Reg) = (BitVec.allOnes 32).setWidth 384 := by decide +kernel
    rw [e, BitVec.getLsbD_setWidth, BitVec.getLsbD_allOnes]
    simp [hm]
  unfold setWord
  simp only [BitVec.getLsbD_or, BitVec.getLsbD_and, BitVec.getLsbD_not, BitVec.getLsbD_shiftLeft, BitVec.getLsbD_setWidth,
    hk, decide_true, Bool.true_and]
  by_cases h1 : k < 32 * i
  · simp [h1]
  · rw [ones _ (by omega)]
    have h3 : k - 32 * i < 384 := by omega
    by_cases h2 : k < 32 * i + 32
    · have h4 : k - 32 * i < 32 := by omega
      have h5 : 32 * i ≤ k := by omega
      simp [h1, h2, h3, h4, h5]
    · have h4 : ¬ k - 32 * i < 32 := by omega
      have : w.getLsbD (k - 32 * i) = false := BitVec.getLsbD_of_ge _ _ (by omega)
      simp [h1, h2, h4, this]

/-- A word read is the word written last, and the other words stay (R17). -/
theorem getWord_setWord (x : Reg) {i j : Nat} (hj : j < 12) (w : Word) :
    getWord (setWord x i w) j = if j = i then w else getWord x j := by
  apply BitVec.eq_of_getLsbD_eq
  intro k hk
  have hk' : 32 * j + k < 384 := by omega
  simp only [getWord, BitVec.getLsbD_extractLsb', hk, decide_true, Bool.true_and, getLsbD_setWord _ _ _ _ hk']
  by_cases h : j = i
  · subst h
    have : 32 * j + k - 32 * j = k := by omega
    simp [this, hk]
  · have : ¬ (32 * i ≤ 32 * j + k ∧ 32 * j + k < 32 * i + 32) := by omega
    simp [this, h, hk]

/-- A register is its twelve words. -/
theorem reg_ext {x y : Reg} (h : ∀ j, j < 12 → getWord x j = getWord y j) : x = y := by
  apply BitVec.eq_of_getLsbD_eq
  intro k hk
  have := congrArg (fun w : Word => w.getLsbD (k % 32)) (h (k / 32) (by omega))
  simp only [getWord, BitVec.getLsbD_extractLsb'] at this
  have e : 32 * (k / 32) + k % 32 = k := by omega
  rw [e] at this
  simpa [Nat.mod_lt] using this

theorem getWord_toNat (x : Reg) (i : Nat) : (getWord x i).toNat = x.toNat / 2 ^ (32 * i) % 2 ^ 32 := by
  simp [getWord, BitVec.extractLsb'_toNat, Nat.shiftRight_eq_div_pow]

end Sys2Proof.Machine
end

