-- ==== Sys2Proof/Laws/HostNotation.lean ====
section
/-! SUPPORT. Laws/HostNotation.lean: what one turn and a run of a host program can do (R50, R51), under every schedule. -/

namespace Sys2Proof.Machine

namespace HostProg

variable {α β : Type}

@[simp] theorem run_nil (p : HostProg α) (s : State) : p.run [] s = .next (s, p) := rfl

/-- A run whose first turn answers goes on from there. -/
theorem run_cons {p q : HostProg α} {s t : State} {b : Bool} (h : p.turn s b = .next (t, q)) (sched : List Bool) :
    p.run (b :: sched) s = q.run sched t := by
  simp [run, h]

/-- A run that answers is a first turn that answers and a run from there. -/
theorem run_cons_cases {p r : HostProg α} {s u : State} {b : Bool} {sched : List Bool}
    (h : p.run (b :: sched) s = .next (u, r)) : ∃ t q, p.turn s b = .next (t, q) ∧ q.run sched t = .next (u, r) := by
  unfold run at h
  split at h
  · exact ⟨_, _, ‹_›, h⟩
  · cases h
  · cases h

/-- A run under one schedule and then another. -/
theorem run_append {p q : HostProg α} {s t : State} {xs : List Bool} (h : p.run xs s = .next (t, q)) (ys : List Bool) :
    p.run (xs ++ ys) s = q.run ys t := by
  induction xs generalizing p s with
  | nil => cases h; rfl
  | cons b xs ih =>
    obtain ⟨_, _, h1, h2⟩ := run_cons_cases h
    rw [List.cons_append, run_cons h1]
    exact ih h2

/-- Another agent's turn is the block's own step. -/
theorem turn_other {p : HostProg α} {s t : State} (h : step s = .next t) : p.turn s false = .next (t, p) := by
  simp [turn, h]

theorem turn_other_cases {p q : HostProg α} {s t : State} (h : p.turn s false = .next (t, q)) :
    step s = .next t ∧ q = p := by
  simp only [turn] at h
  split at h
  · cases h; exact ⟨‹_›, rfl⟩
  · cases h
  · cases h

/-- The host's turn is the step of the transaction placed first, and the program goes on with its response. -/
theorem turn_host {p : HostProg α} {s t : State} {a : Access} {r : Response} (ha : p.nextAccess = some a)
    (h : step (s.withEvents (.host a :: s.events)) = .next t) (hr : t.responses.headD .completes = r) :
    p.turn s true = .next (t, p.resume r) := by
  subst hr; simp [turn, ha, h]

/-- The host's read. -/
theorem turn_read {p : HostProg α} {s : State} {off : Nat} (ha : p.nextAccess = some (.read off 4)) :
    p.turn s true = .next (s.respond (s.busRead off 4), p.resume (s.busRead off 4)) :=
  turn_host ha (step_read rfl) rfl

/-- A program that has ended leaves the host silent. -/
@[simp] theorem turn_done (h : α) (s : State) : (done h).turn s true = .next (s, done h) := rfl
@[simp] theorem turn_stopped (off : Nat) (s : State) : (stopped off : HostProg α).turn s true = .next (s, stopped off) := rfl

/-- A stopped program stays stopped. -/
theorem run_stopped {sched : List Bool} {off : Nat} {s t : State} {q : HostProg α}
    (h : (stopped off).run sched s = .next (t, q)) : q = stopped off := by
  induction sched generalizing s with
  | nil => cases h; rfl
  | cons b sched ih =>
    obtain ⟨u, q', h1, h2⟩ := run_cons_cases h
    cases b with
    | true => cases h1; exact ih h2
    | false => rw [(turn_other_cases h1).2] at h2; exact ih h2

/-- A turn of `p.bind f` is a turn of p, where p has not ended. -/
theorem turn_bind {p : HostProg α} {f : α → HostProg β} {s t : State} {q : HostProg β} {b : Bool}
    (hp : ∀ h, p ≠ done h) (h : (p.bind f).turn s b = .next (t, q)) :
    ∃ p', p.turn s b = .next (t, p') ∧ q = p'.bind f := by
  cases b with
  | false =>
    obtain ⟨h1, h2⟩ := turn_other_cases h
    exact ⟨p, turn_other h1, h2⟩
  | true =>
    cases p with
    | done a => exact absurd rfl (hp a)
    | stopped off => cases h; exact ⟨_, rfl, rfl⟩
    | issue a next =>
      simp only [turn, bind, nextAccess, resume] at h ⊢
      split at h <;> cases h
      simp [*]
    | loop a again next =>
      simp only [turn, bind, nextAccess, resume] at h ⊢
      split at h <;> cases h
      exact ⟨_, rfl, by split <;> rfl⟩

/-- A run of `p.bind f` that ends is a run of p that ends and a run of f on the value it left. -/
theorem run_bind {p : HostProg α} {f : α → HostProg β} {sched : List Bool} {s t : State} {b : β}
    (h : (p.bind f).run sched s = .next (t, done b)) :
    ∃ xs ys u a, sched = xs ++ ys ∧ p.run xs s = .next (u, done a) ∧ (f a).run ys u = .next (t, done b) := by
  induction sched generalizing p s with
  | nil =>
    cases p with
    | done a => exact ⟨[], [], s, a, rfl, rfl, h⟩
    | _ => simp [bind] at h
  | cons c sched ih =>
    by_cases hp : ∃ a, p = done a
    · obtain ⟨a, rfl⟩ := hp
      exact ⟨[], _, s, a, rfl, rfl, h⟩
    · obtain ⟨u, q, h1, h2⟩ := run_cons_cases h
      obtain ⟨p', h3, rfl⟩ := turn_bind (fun a e => hp ⟨a, e⟩) h1
      obtain ⟨xs, ys, v, a, rfl, h4, h5⟩ := ih h2
      exact ⟨c :: xs, ys, v, a, rfl, by rw [run_cons h3]; exact h4, h5⟩

/-- The other way: a turn of p, where p has not ended, is a turn of `p.bind f`. -/
theorem turn_bind_of {p p' : HostProg α} {f : α → HostProg β} {s t : State} {b : Bool} (hp : ∀ h, p ≠ done h)
    (h : p.turn s b = .next (t, p')) : (p.bind f).turn s b = .next (t, p'.bind f) := by
  cases b with
  | false => obtain ⟨h1, rfl⟩ := turn_other_cases h; exact turn_other h1
  | true =>
    cases p with
    | done a => exact absurd rfl (hp a)
    | stopped off => cases h; rfl
    | issue a next =>
      simp only [turn, bind, nextAccess, resume] at h ⊢
      split at h <;> cases h
      simp [*]
    | loop a again next =>
      simp only [turn, bind, nextAccess, resume] at h ⊢
      split at h <;> cases h
      congr 2; split <;> rfl

/-- A run of p that ends, and then a run of f on the value it left. -/
theorem run_bind_of {p : HostProg α} {f : α → HostProg β} {xs : List Bool} {s u : State} {a : α}
    (h : p.run xs s = .next (u, done a)) : ∃ xs', (p.bind f).run xs' s = .next (u, f a) := by
  induction xs generalizing p s with
  | nil => cases h; exact ⟨[], rfl⟩
  | cons c xs ih =>
    obtain ⟨v, q, h1, h2⟩ := run_cons_cases h
    obtain ⟨xs', h3⟩ := ih h2
    by_cases hp : ∃ a', p = done a'
    · obtain ⟨a', rfl⟩ := hp
      cases c with
      | true => cases h1; exact ⟨xs', h3⟩
      | false =>
        obtain ⟨h4, rfl⟩ := turn_other_cases h1
        exact ⟨false :: xs', (run_cons (turn_other h4) _).trans h3⟩
    · exact ⟨c :: xs', (run_cons (turn_bind_of (fun a' e => hp ⟨a', e⟩) h1) _).trans h3⟩

theorem bind_assoc {γ : Type} (p : HostProg α) (f : α → HostProg β) (g : β → HostProg γ) :
    (p.bind f).bind g = p.bind fun a => (f a).bind g := by
  induction p with
  | done a => rfl
  | issue a next ih => exact congrArg (issue a) (funext ih)
  | loop a again next ih => exact congrArg (loop a again) ih
  | stopped off => rfl

end HostProg

namespace HostNotation

open HostProg

/-- `wr` whose write completes. -/
theorem turn_wr {s t : State} {off : Nat} {v : Word} (h : step (s.withEvents (.host (.write off 4 0xF v) :: s.events)) = .next t)
    (hr : t.responses.headD .completes = .completes) : (wr off v).turn s true = .next (t, .done ()) :=
  turn_host (p := wr off v) rfl h hr

/-- `rd` whose read returns a word. -/
theorem turn_rd {s : State} {off : Nat} {w : Word} (h : s.busRead off 4 = .data w) :
    (rd off).turn s true = .next (s.respond (.data w), .done w) := by
  rw [turn_read (off := off) rfl, h]; rfl

/-- `s[0]` of a STATUS word is BUSY (R22). -/
@[simp] theorem statusWord_busyBit (s : State) : s.statusWord.getLsbD 0 = s.busy := by
  cases hb : s.busy <;> simp [State.statusWord, bit, hb]

/-- One read of `wait`: it ends exactly when BUSY = 0. -/
theorem turn_wait (s : State) :
    wait.turn s true = .next (s.respond (.data s.statusWord), if s.busy then wait else .done ()) := by
  have e : s.busRead STATUS 4 = .data s.statusWord := by simp [State.busRead, STATUS]
  rw [turn_read (off := STATUS) rfl, e]
  simp only [wait, resume, saysBusy, statusWord_busyBit]

end HostNotation

end Sys2Proof.Machine
end

