-- ==== Sys2Proof/Laws/PerInstr.lean ====
section
/-! SUPPORT. Laws/PerInstr.lean: what is said of each instruction as syntax, one lemma per constructor. -/

namespace Sys2Proof.Laws.RowWord

/-- The match value of a command's row in spec/opcode_table.json (R46). -/
def rowMatch : Instr → Word
  | .mmul _ => 0x00000101
  | .msqr _ => 0x00000102
  | .mredc _ => 0x00000103
  | .tomont _ => 0x00000104
  | .frommont _ => 0x00000105

/-- The command's word lies in its row (`w & mask = match`), carries its IE bit, has every other bit 0, and the command is well
formed. -/
def Statement (i : Instr) : Prop :=
  encode i &&& 0x0000010F = rowMatch i ∧ ctrlIe (encode i) = i.ie ∧ encode i &&& ~~~0x0001010F = 0 ∧ i.wellFormed = true

theorem mmul (ie : Bool) : Statement (.mmul ie) := by cases ie <;> (unfold Statement; decide)
theorem msqr (ie : Bool) : Statement (.msqr ie) := by cases ie <;> (unfold Statement; decide)
theorem mredc (ie : Bool) : Statement (.mredc ie) := by cases ie <;> (unfold Statement; decide)
theorem tomont (ie : Bool) : Statement (.tomont ie) := by cases ie <;> (unfold Statement; decide)
theorem frommont (ie : Bool) : Statement (.frommont ie) := by cases ie <;> (unfold Statement; decide)

end Sys2Proof.Laws.RowWord
end

