-- ==== Sys2Proof/Tests/Slice0.lean ====
section
/-! SUPPORT. Tests/Slice0.lean: small tests, their expected values from 95_test_vectors.md or from the rules named, and one
witness for the hypotheses of each statement. -/

namespace Sys2Proof.Tests

open Sys2Proof.Machine

/-- The reset state with given operands and turns. -/
def loaded (a b : Nat) (es : List Event) : State :=
  { State.reset with opa := BitVec.ofNat 384 a, opb := BitVec.ofNat 384 b, events := es }

/-- A state with a command in flight on given latches. -/
def flight (op : OpBits) (a b : Nat) (es : List Event) : State :=
  { State.reset with busy := true, lop := op, la := BitVec.ofNat 384 a, lb := BitVec.ofNat 384 b, events := es }

/-- A condition on the next state; false on a stop. -/
def after (r : Result) (f : State → Bool) : Bool :=
  match r with
  | .next t => f t
  | _ => false

/-- The host's write of a word to CTRL. -/
def ctrl (v : Word) : Event := .host (ctrlAccess v)

/-! ## Well-formedness smoke (R31, R33) -/

theorem test_wf_refuses_subword : (Access.read 0x004 2).wellFormed = false := by decide
theorem test_wf_refuses_misaligned : (Access.read 0x002 4).wellFormed = false := by decide
theorem test_wf_refuses_partial_enables : (Access.write 0x100 4 0x3 0).wellFormed = false := by decide
theorem test_wf_refuses_doubleword : (Access.write 0x100 8 0xF 0).wellFormed = false := by decide
theorem test_wf_refuses_gaps :
    ([0x008, 0x0FC, 0x130, 0x13C, 0x170, 0x17C, 0x1B0, 0x1FC].all fun o => !(Access.read o 4).wellFormed) = true := by decide
theorem test_wf_admits_edges :
    ([0x000, 0x004, 0x100, 0x12C, 0x140, 0x16C, 0x180, 0x1AC].all fun o => (Access.read o 4).wellFormed) = true := by decide
theorem test_wf_command : (Instr.mmul true).wellFormed = true := by decide

/-! ## Decoding: words written out from R44 and R46, bit 16 IE, bit 8 START, bits 3:0 OP -/

theorem test_decode_mmul : decode 0b00000000000000000000000100000001 = .command (.mmul false) := by decide
theorem test_decode_mmul_ie : decode 0b00000000000000010000000100000001 = .command (.mmul true) := by decide
theorem test_decode_msqr : decode 0b00000000000000000000000100000010 = .command (.msqr false) := by decide
theorem test_decode_mredc_ie : decode 0b00000000000000010000000100000011 = .command (.mredc true) := by decide
theorem test_decode_tomont : decode 0b00000000000000000000000100000100 = .command (.tomont false) := by decide
theorem test_decode_frommont_ie : decode 0b00000000000000010000000100000101 = .command (.frommont true) := by decide
/-- IF20: every reserved bit set. -/
theorem test_decode_reserved_bits_set : decode 0xfffffff1 = .command (.mmul true) := by decide
/-- IF19: every reserved bit set, START and IE clear. -/
theorem test_decode_no_start : decode 0xfffefef1 = .noCommand := by decide
theorem test_decode_illegal_zero : decode 0x00000100 = .illegal 0x0 := by decide
theorem test_decode_illegal_six : decode 0x00000106 = .illegal 0x6 := by decide
theorem test_decode_illegal_f : decode 0x0000010F = .illegal 0xF := by decide
/-- R32: the lowest address holds bits 7:0. -/
theorem test_decode_bytes_little_endian :
    decodeBytes [0x02, 0x01, 0x01, 0x00] = .word (.command (.msqr true)) := by decide
theorem test_decode_bytes_wrong_length : decodeBytes [0x01, 0x01, 0x00] = .notOneWord 3 := by decide
theorem test_table_rows_decode :
    [0x101, 0x102, 0x103, 0x104, 0x105].map (decodeTableWord 32) =
      [some (.mmul false), some (.msqr false), some (.mredc false), some (.tomont false), some (.frommont false)] := by decide

/-! ## The commands: the START from reset, and one completion each, from 95_test_vectors.md sections 2.1 to 2.5 -/

/-- IF4, through the fetch: MMUL as the first step after reset. -/
theorem test_mmul_start :
    after (step (State.reset.withFetchWord 32 0x101)) (fun t => t.busy && t.lop == 1 && t.statusWord == 1) = true := by decide
/-- MM9. -/
theorem test_mmul_value :
    after (step (flight 1
      0x11ebab9dbb81e28c6cf28d7901622c038b256521ed1f9bcb57605e0db0ddbb51b93c0018d6c40005321300000006554f
      0x0de0f8777c82e0857dde005a606d6b999e7c71f069ece0514f7823c40df41de886840025e97c0007ee1d00000009aaa1 []))
      (fun t => t.res.toNat ==
        0x01c0df04bf85da70b0a058fe7d8f2a5bd881985be054ade337bf74e7253745acee5c004d21a40010223b00000013aa97 &&
        t.statusWord == 0x00000002) = true := by decide +kernel
theorem test_msqr_start :
    after (step (State.reset.withFetchWord 32 0x10102)) (fun t => t.lop == 2 && t.ctrlWord == 0x00010002) = true := by decide
/-- MS5: OPB = p is ignored. -/
theorem test_msqr_ignores_b :
    after (step (flight 2
      0x05cb922afe84dc779fb4e61d1e83eac5c52a8b8d6387695d3fa7af30c820e316211400400eec000d6631000000105545 Config.p []))
      (fun t => t.res.toNat ==
        0x02f8c8ecbf1867bbd36cd6db5547e905755d6e3dfe1ffc12d7159952f1f3794a86b801419948004344f600000051ffae &&
        t.statusWord == 0x00000002) = true := by decide +kernel
theorem test_mredc_start :
    after (step (State.reset.withFetchWord 32 0x103)) (fun t => t.busy && t.lop == 3) = true := by decide
/-- MR6: T = p·R − 1, the largest accepted. -/
theorem test_mredc_largest :
    after (step (flight 3 (2 ^ 384 - 1) (Config.p - 1) []))
      (fun t => t.res.toNat ==
        0x05024ae85084d9b05dbd438f06fc594c4cdfa0709adc84d632f22927e21b885b9ecaed89d8bb0503c52b7da6c7f4628b &&
        t.statusWord == 0x00000002) = true := by decide +kernel
theorem test_tomont_start :
    after (step (State.reset.withFetchWord 32 0x104)) (fun t => t.busy && t.lop == 4) = true := by decide
/-- TM3. -/
theorem test_tomont_two :
    after (step (flight 4 2 0 []))
      (fun t => t.res.toNat ==
        0x11ebab9dbb81e28c6cf28d7901622c038b256521ed1f9bcb57605e0db0ddbb51b93c0018d6c40005321300000006554f) = true := by
  decide +kernel
theorem test_frommont_start :
    after (step (State.reset.withFetchWord 32 0x105)) (fun t => t.busy && t.lop == 5) = true := by decide
/-- FM6: A = p fails the range check. -/
theorem test_frommont_refuses_p :
    after (step (flight 5 Config.p 0 [])) (fun t => t.res == 0 && t.statusWord == 0x00000206) = true := by decide +kernel

/-! ## Flags, interrupt, reset (95_test_vectors.md section 2.6) and bus accesses (section 2.7) -/

/-- IF8: the busy check first. -/
theorem test_busy_before_opcode :
    after (step (flight 1 0 0 [ctrl 0x00000100])) (fun t => t.statusWord == 0x00000305 && t.ctrlWord == 0) = true := by decide
/-- IF9: the second error keeps the first code. -/
theorem test_first_error_kept :
    after (step { State.reset with err := true, errcode := 1, events := [ctrl 0x00000107] })
      (fun t => t.statusWord == 0x00000104) = true := by decide
/-- IF17. -/
theorem test_illegal_op_raises_irq :
    after (step (loaded 0 0 [ctrl 0x00010100])) (fun t => t.irq && t.statusWord == 0x00000104) = true := by decide
/-- IF14: ERRCODE bits are read-only. -/
theorem test_errcode_read_only :
    after (step { State.reset with err := true, errcode := 1, events := [.host (.write 4 4 0xF 0x00000f00)] })
      (fun t => t.statusWord == 0x00000104) = true := by decide
/-- IF21. -/
theorem test_reset_abandons :
    after (step (flight 1 1 1 [.reset])) (fun t => t == State.reset) = true := by decide +kernel
/-- BA2 to BA6. -/
theorem test_bus_errors :
    ([(0x002, 4), (0x004, 2), (0x008, 4), (0x130, 4), (0x1B0, 4)].all fun (a : Nat × Nat) =>
      State.reset.busRead a.1 a.2 == .busError a.1) = true := by decide
/-- BA7. -/
theorem test_res_write_ignored :
    after (step (loaded 0 0 [.host (.write 0x1AC 4 0xF 0xdeadbeef)])) (fun t => t.res == 0 && t.responses == [.completes]) =
      true := by decide +kernel
/-- BA8. -/
theorem test_top_word_of_opa :
    after (step (loaded 0 0 [.host (.write 0x12C 4 0xF 0x12345678)])) (fun t => getWord t.opa 11 == 0x12345678) = true := by
  decide +kernel
/-- BA9. -/
theorem test_partial_enables :
    after (step (loaded 5 0 [.host (.write 0x100 4 0x3 7)])) (fun t => t.opa == 5 && t.responses == [.busError 0x100]) = true := by
  decide +kernel
/-- The byte-order example of section 2.7. -/
theorem test_byte_order :
    let s := loaded 0x0102030405060708090a0b0c0d0e0f10 0 []
    (s.busRead 0x100 4, s.busRead 0x10C 4, s.windowByte 0x100, s.windowByte 0x10F) =
      (.data 0x0d0e0f10, .data 0x01020304, some 0x10, some 0x01) := by decide +kernel
/-- Nothing is in flight and no turn is listed: the state stays (R79). -/
theorem test_idle_keeps : after (step State.reset) (fun t => t == State.reset) = true := by decide +kernel

/-! ## Host programs (R51), with the words of p that 95_test_vectors.md P3 lists -/

/-- `wait` reads on while BUSY = 1, and ends at the read after the completion. -/
theorem test_wait_ends_after_completion :
    (match HostNotation.wait.run [true, true, false, true] (flight 4 2 0 []) with
      | .next (t, .done ()) => !t.busy && t.done && t.responses == [.data 0x2, .data 0x1, .data 0x1]
      | _ => false) = true := by decide +kernel

/-- With BUSY = 0 the first read ends it. -/
theorem test_wait_idle_reads_once :
    (match HostNotation.wait.run [true, true, true] (loaded 0 0 []) with
      | .next (t, .done ()) => t.responses == [.data 0x0]
      | _ => false) = true := by decide +kernel

theorem test_ld384_words_of_p :
    (match (HostNotation.ld384 HostNotation.OPA Config.p).run (List.replicate 12 true) State.reset with
      | .next (t, .done ()) => (List.range 12).map (getWord t.opa) ==
          [0xffffaaab, 0xb9feffff, 0xb153ffff, 0x1eabfffe, 0xf6b0f624, 0x6730d2a0,
           0xf38512bf, 0x64774b84, 0x434bacd7, 0x4b1ba7b6, 0x397fe69a, 0x1a0111ea]
      | _ => false) = true := by decide +kernel

/-! ## Witnesses: each statement's hypotheses are met together -/

theorem witness_StepRunsTheDecodedCommand :
    ∃ (s : State) (es : List Event) (v : Word) (i : Instr), s.events = .host (.write 0x000 4 0xF v) :: es ∧
      decode v = .command i := ⟨loaded 2 3 [ctrl 0x103], [], 0x103, .mredc false, rfl, by decide⟩

/-- Each clause of `CommandMeaning`: BUSY at a START, idle at a START, a completion in range and one out of range. -/
theorem witness_CommandMeaning :
    (flight 1 0 0 []).busy = true ∧ State.reset.busy = false ∧
    (∀ op : Opcode, (flight op.bits 0 0 []).completes ∧ (flight op.bits 0 0 []).lop = op.bits ∧ inRange op 0 0 = true) ∧
    (∀ op : Opcode, (flight op.bits Config.p Config.p []).completes ∧
      (flight op.bits Config.p Config.p []).lop = op.bits ∧ inRange op Config.p Config.p = false) := by
  refine ⟨rfl, rfl, fun op => ⟨⟨rfl, .inl rfl⟩, rfl, ?_⟩, fun op => ⟨⟨rfl, .inl rfl⟩, rfl, ?_⟩⟩ <;> cases op <;> decide +kernel

/-- The boundary values of the range predicates: p − 1 is in range and p is not, for every command. -/
theorem witness_range_boundary :
    ∀ op : Opcode, inRange op (Config.p - 1) (Config.p - 1) = true ∧ inRange op Config.p Config.p = false := by
  intro op; cases op <;> decide +kernel

theorem witness_RadixConstantsAreRight :
    Config.p < (2 ^ 64) ^ 6 ∧ Config.Rinv < Config.p ∧ Config.R * Config.Rinv % Config.p = 1 := by decide +kernel

theorem witness_MontgomeryLaws : 2 < Config.p ∧ Config.p - 1 < Config.p ∧ Config.RmodP < Config.p := by decide +kernel

/-- Each clause of `StartRequestAcceptsOrRejects`, at the boundary opcodes 0, 1, 5 and 6. -/
theorem witness_StartRequestAcceptsOrRejects :
    (0x100 : Word).getLsbD 8 = true ∧ ((0x100 : Word).extractLsb' 0 4).toNat = 0 ∧
    ((0x101 : Word).extractLsb' 0 4).toNat = 1 ∧ ((0x105 : Word).extractLsb' 0 4).toNat = 5 ∧
    6 ≤ ((0x106 : Word).extractLsb' 0 4).toNat ∧
    (loaded 0 0 [ctrl 0x105]).events = .host (.write 0x000 4 0xF 0x105) :: [] ∧ (loaded 0 0 []).busy = false ∧
    (flight 1 0 0 []).busy = true := by
  refine ⟨by decide, by decide, by decide, by decide, by decide, rfl, rfl, rfl⟩

theorem witness_CtrlWriteStoresOpAndIe :
    (loaded 0 0 [ctrl 0x00010003]).events = .host (.write 0x000 4 0xF 0x00010003) :: [] ∧
    (0x00010003 : Word).getLsbD 8 = false ∧ (0x00010103 : Word).getLsbD 8 = true ∧ (flight 1 0 0 [ctrl 0x00010003]).busy = true := by
  refine ⟨rfl, by decide, by decide, rfl⟩

/-- A completion that answers a next state, and the idle turn of the engine. -/
theorem witness_completion :
    (flight 4 2 0 [.engine]).completes ∧ (∃ t, step (flight 4 2 0 [.engine]) = .next t) ∧
    (loaded 1 1 [.engine]).engineNext ∧ (loaded 1 1 [.engine]).busy = false :=
  ⟨⟨rfl, .inr ⟨[], rfl⟩⟩, ⟨_, step_complete (op := .tomont) ⟨rfl, .inr ⟨[], rfl⟩⟩ rfl⟩, .inr ⟨[], rfl⟩, rfl⟩

/-- Two states with equal latches and other registers different, both about to complete. -/
theorem witness_CompletionDependsOnLatchesOnly :
    ∃ s t s' t' : State, s.completes ∧ t.completes ∧ s.lop = t.lop ∧ s.la = t.la ∧ s.lb = t.lb ∧ s.opa ≠ t.opa ∧
      step s = .next s' ∧ step t = .next t' :=
  ⟨flight 2 3 0 [], { flight 2 3 0 [] with opa := 1, err := true, errcode := 3 }, _, _, ⟨rfl, .inl rfl⟩, ⟨rfl, .inl rfl⟩,
    rfl, rfl, rfl, by decide +kernel, step_complete (op := .msqr) ⟨rfl, .inl rfl⟩ rfl,
    step_complete (op := .msqr) ⟨rfl, .inl rfl⟩ rfl⟩

/-- A state that meets R26's invariants with a command in flight and an error recorded, and a step from it. -/
theorem witness_EveryStepKeepsTheInvariant :
    ∃ s t : State, s.Inv ∧ s.busy = true ∧ s.err = true ∧ step s = .next t :=
  ⟨{ flight 5 7 0 [.engine] with err := true, errcode := 3, res := 6 }, _,
    ⟨by decide, by decide, by decide +kernel, by decide⟩, rfl, rfl, step_complete (op := .frommont) ⟨rfl, .inr ⟨[], rfl⟩⟩ rfl⟩

/-- The stop of `StepStopsOnlyOnAnIllegalLatch`, which no reachable state meets. -/
theorem witness_StepStopsOnlyOnAnIllegalLatch :
    (flight 6 0 0 []).completes ∧ 6 ≤ (flight 6 0 0 []).lop.toNat ∧ (flight 0 0 0 []).lop.toNat = 0 :=
  ⟨⟨rfl, .inl rfl⟩, by decide, by decide⟩

/-- Every mover of `FlagsChangeOnlyAsTheTableSays`, `RegistersAreWrittenOnlyByTheirAgents` and `IrqMovesOnlyForItsCauses`. -/
theorem witness_movers :
    (loaded 1 1 [ctrl 0x105]).acceptsNext ∧ (flight 1 0 0 [ctrl 0x101]).startsNext ∧ ¬ (flight 1 0 0 [ctrl 0x101]).acceptsNext ∧
    (flight 1 0 0 []).completes ∧ (loaded 0 0 [.reset]).resetNext ∧
    (loaded 0 0 [.host (.write 0x004 4 0xF 0x6)]).writesNext 0x004 0x6 ∧
    (loaded 0 0 [.host (.write 0x12C 4 0xF 9)]).writesNext (0x100 + 4 * 11) 9 ∧
    (loaded 0 0 [.host (.write 0x140 4 0xF 9)]).writesNext (0x140 + 4 * 0) 9 ∧ ¬ (flight 1 0 0 []).resetNext := by
  refine ⟨⟨rfl, 0x105, ⟨[], rfl⟩, by decide, by decide, by decide⟩, ⟨0x101, ⟨[], rfl⟩, by decide⟩, fun h => ?_,
    ⟨rfl, .inl rfl⟩, ⟨[], rfl⟩, ⟨[], rfl⟩, ⟨[], rfl⟩, ⟨[], rfl⟩, fun ⟨_, h⟩ => ?_⟩
  · exact absurd h.1 (by decide)
  · exact absurd h (by simp [flight])

/-- `irq` high and low, each before a step that moves it. -/
theorem witness_irq :
    ({ loaded 0 0 [ctrl 0] with ie := true, done := true } : State).irq = true ∧ (loaded 0 0 [ctrl 0x00010100]).irq = false ∧
    (0x00010100 : Word).getLsbD 16 = true ∧ (0x00000006 : Word).getLsbD 1 = true ∧ (0x00000006 : Word).getLsbD 2 = true := by
  decide

/-- A run of three steps over which ERR stays 1. -/
theorem witness_FirstErrorIsKept :
    ∃ s t : State, s.err = true ∧ runSteps 2 s = .next t ∧
      ∀ j u, j ≤ 2 → runSteps j s = .next u → u.err = true := by
  let s : State := { State.reset with err := true, errcode := 1, events := [.engine, .engine] }
  have h1 : runSteps 1 s = .next (s.withEvents [.engine]) :=
    (runSteps_succ (step_idle (s := s) (.inr ⟨[.engine], rfl⟩) rfl)).trans (runSteps_zero _)
  have h2 : runSteps 2 s = .next (s.withEvents []) :=
    runSteps_two (step_idle (s := s) (.inr ⟨[.engine], rfl⟩) rfl)
      (step_idle (s := s.withEvents [.engine]) (.inr ⟨[], rfl⟩) rfl)
  refine ⟨s, _, rfl, h2, fun j u hj h => ?_⟩
  match j, hj with
  | 0, _ => cases h; rfl
  | 1, _ => rw [h1] at h; cases h; rfl
  | 2, _ => rw [h2] at h; cases h; rfl

/-- Reads and writes at the edges of each range, and of each gap. -/
theorem witness_bus_ranges :
    (loaded 0 0 [.host (.read 0x12C 4)]).events = [.host (.read (0x100 + 4 * 11) 4)] ∧
    (loaded 0 0 [.host (.read 0x16C 4)]).events = [.host (.read (0x140 + 4 * 11) 4)] ∧
    (loaded 0 0 [.host (.write 0x1AC 4 0xF 1)]).events = [.host (.write (0x180 + 4 * 11) 4 0xF 1)] ∧
    (8 ≤ 0x008 ∧ 0x0FF < 0x100) ∧ (0x130 ≤ 0x130 ∧ 0x13F < 0x140) ∧ (0x170 ≤ 0x170 ∧ 0x17F < 0x180) ∧ 0x1B0 ≤ 0x1B0 := by
  decide

theorem witness_BusReadTwice :
    (loaded 0 0 [.host (.read 0 4), .host (.read 0 4)]).events = .host (.read 0 4) :: .host (.read 0 4) :: [] := rfl

theorem witness_OnlyIllFormedAccessesGetABusError :
    (Access.read 0x12D 4).wellFormed = false ∧ (Access.write 0x12C 4 0xF 1).wellFormed = true := by decide

theorem witness_StatusWriteClearsOnly :
    ∃ t, runSteps 2 (flight 3 0 Config.p [.host (.write 0x004 4 0xF 0x2), .engine]) = .next t ∧
      inRange .mredc 0 Config.p = false :=
  ⟨_, runSteps_two (step_status rfl) (step_complete (op := .mredc) ⟨rfl, .inr ⟨[], rfl⟩⟩ rfl), by decide +kernel⟩

theorem witness_reserved_bits :
    (0xfffffff1 : Word) &&& 0x0001010F = 0x00010101 &&& 0x0001010F ∧ (0xffffffff : Word) &&& 6 = 6 &&& 6 := by decide

theorem witness_WindowBytesAreLittleEndian : ∃ w, State.reset.busRead 0x1AC 4 = .data w := ⟨_, rfl⟩

theorem witness_WindowLiesAtBase :
    (0x1FF < 0x200) ∧ Config.base + 0x200 ≤ Config.base + 0x200 ∧ Config.base + 0x1FF < Config.base + 0x200 := by
  refine ⟨by decide, Nat.le_refl _, by omega⟩

/-- An accepted START before each of R69 (d)'s three host transactions. -/
theorem witness_HostThenCompletionInOneCycle :
    (flight 1 0 0 [.host (.write 0x000 4 0xF 0x101), .engine]).busy = true ∧
    (flight 1 0 0 []).lop = Opcode.mmul.bits ∧ (flight 1 0 0 []).err = false ∧ (0x101 : Word).getLsbD 8 = true := by decide

/-- Two idle states that differ in every latch. -/
theorem witness_IdleLatchesAreNeverObserved :
    ({ loaded 2 3 [ctrl 0x101] with lop := 9, la := 1, lb := 1 } : State).sameButLatches (loaded 2 3 [ctrl 0x101]) ∧
    (loaded 2 3 [ctrl 0x101]).busy = false := ⟨rfl, rfl⟩

theorem witness_OperandWriteCommutesWithCompletion :
    (0x100 ≤ 0x12C ∧ 0x12C ≤ 0x12C) ∧ (0x140 ≤ 0x140 ∧ 0x140 ≤ 0x16C) ∧ 0x12C % 4 = 0 ∧ (flight 2 1 1 []).busy = true := by
  decide

theorem witness_ResultIsStableWhileBusy :
    (flight 1 0 0 [.host (.read 0x180 4), ctrl 0x102, .engine]).events =
      [Access.read 0x180 4, ctrlAccess 0x102].map .host ++ [.engine] := rfl

/-- Two states with the same control and different data, and a step. -/
theorem witness_OperandsDoNotSteerControl :
    (flight 1 0 0 [.engine]).sameControl (flight 1 Config.p 5 [.engine]) ∧
    ∃ s', runSteps 1 (flight 1 0 0 [.engine]) = .next s' :=
  ⟨⟨rfl, rfl, rfl, rfl, rfl, rfl⟩, _, runSteps_succ (step_complete (op := .mmul) ⟨rfl, .inr ⟨[], rfl⟩⟩ rfl)⟩

/-- A state that meets R26's invariants with a command in flight and no turn listed: the premises of
`SoftwareResetRestoresVisibleState`, `EveryCommandCompletes` and `WaitEndsAtTheFirstIdleRead`. -/
theorem witness_SoftwareResetRestoresVisibleState :
    ∃ s : State, s.Inv ∧ s.busy = true ∧ s.events = [] ∧ s.lop = Opcode.frommont.bits ∧ .reset ∉ s.events :=
  ⟨flight 5 7 0 [], ⟨by decide, by decide, by decide +kernel, by decide⟩, rfl, rfl, rfl, by decide⟩

/-- A run over which `ResultIsStableWhileBusy`'s first clause speaks, idle, with RES not 0. -/
theorem witness_ResultIsStableIdle :
    ∃ s t : State, s.res = 6 ∧ runSteps 1 s = .next t ∧ ∀ j u, j < 1 → runSteps j s = .next u → ¬ u.completes ∧ ¬ u.resetNext := by
  let s : State := { State.reset with res := 6 }
  refine ⟨s, _, rfl, (runSteps_succ (step_idle (s := s) (.inl rfl) rfl)).trans (runSteps_zero _), fun j u hj h => ?_⟩
  obtain rfl : j = 0 := by omega
  cases h
  exact ⟨fun h => absurd h.1 (by decide), fun ⟨_, h⟩ => by cases h⟩

/-- The premises of `Mov384CopiesTheResult` and `CommandWaitReadReturnsTheResult`, and a register of `St384ReadsTheRegister`. -/
theorem witness_idle_host_programs :
    (loaded 2 3 []).busy = false ∧ (loaded 2 3 []).events = [] ∧
    (HostNotation.OPB, (loaded 2 3 []).opb) ∈ [(HostNotation.OPA, (loaded 2 3 []).opa), (HostNotation.OPB, (loaded 2 3 []).opb),
      (HostNotation.RES, (loaded 2 3 []).res)] := ⟨rfl, rfl, by simp⟩

theorem witness_word_serial :
    Config.p - 1 < Config.p ∧ (2 ^ 384 - 1 : Nat) < 2 ^ 384 ∧ inRange .mredc (2 ^ 384 - 1) (Config.p - 1) = true := by
  decide +kernel

end Sys2Proof.Tests
end

section
/-! PROOFS. The Montgomery constants of 00_scope.md R7, and O10. -/

namespace Sys2Proof.Config

theorem one_lt_p : 1 < p := by decide +kernel

theorem p_lt_R : p < R := by decide +kernel

theorem Rinv_lt_p : Rinv < p := by decide +kernel

theorem RmodP_eq : RmodP = R % p := by decide +kernel

theorem R2modP_eq : R2modP = R * R % p := by decide +kernel

theorem R_mul_Rinv_mod : R * Rinv % p = 1 := by decide +kernel

theorem R_eq_six_limbs : R = (2 ^ 64) ^ 6 := by decide +kernel

/-- Five 64-bit limbs do not hold p. -/
theorem five_limbs_le_p : (2 ^ 64) ^ 5 ≤ p := by decide +kernel

/-- Being 1 modulo p, as a remainder and as a congruence. -/
theorem mod_p_eq_one_iff (n : Nat) : n % p = 1 ↔ n ≡ 1 [MOD p] := by
  rw [Nat.ModEq, Nat.mod_eq_of_lt one_lt_p]

/-- R is invertible modulo p, so it can be cancelled there. -/
theorem coprime_p_R : Nat.Coprime p R :=
  (Nat.coprime_of_mul_modEq_one _ ((mod_p_eq_one_iff _).1 R_mul_Rinv_mod)).symm

/-- R is the smallest power of 2^64 above p. -/
theorem R_le_of_p_lt {k : Nat} (h : p < (2 ^ 64) ^ k) : R ≤ (2 ^ 64) ^ k := by
  have hk : 5 < k := (Nat.pow_lt_pow_iff_right (by norm_num)).1 (five_limbs_le_p.trans_lt h)
  rw [R_eq_six_limbs]
  exact Nat.pow_le_pow_right (by norm_num) hk

/-- R⁻¹ is the only inverse of R in [0, p): cancel R in R·y ≡ R·R⁻¹. -/
theorem eq_Rinv_of_R_mul_mod {y : Nat} (hy : y < p) (h : R * y % p = 1) : y = Rinv := by
  have hmul : R * y ≡ R * Rinv [MOD p] := h.trans R_mul_Rinv_mod.symm
  exact (hmul.cancel_left_of_coprime coprime_p_R).eq_of_lt_of_lt hy Rinv_lt_p

/-- Settles O10: the values are R7's own digits; that R is the least power and R⁻¹ the only inverse are the two lemmas above. -/
theorem radixConstantsAreRight : Obligations.RadixConstantsAreRight :=
  ⟨rfl, fun _ => R_le_of_p_lt, p_lt_R, rfl, rfl, rfl, RmodP_eq, R2modP_eq, Rinv_lt_p, R_mul_Rinv_mod,
    fun _ => eq_Rinv_of_R_mul_mod⟩

end Sys2Proof.Config
end

section
/-! PROOFS. The values of 384-bit registers (R14), and O34. -/

namespace Sys2Proof.Machine

/-- The first n words of a register are its value modulo 2^(32n). -/
theorem sum_words_eq_mod (x : Reg) (n : Nat) :
    ∑ i ∈ Finset.range n, (getWord x i).toNat * 2 ^ (32 * i) = val x % 2 ^ (32 * n) := by
  induction n with
  | zero => simp [Nat.mod_one]
  | succ n ih =>
    have next_digit := Nat.mod_pow_succ (x := val x) (b := 2 ^ 32) (k := n)
    simp only [← pow_mul] at next_digit
    rw [Finset.sum_range_succ, ih, getWord_toNat, next_digit, Nat.mul_comm (2 ^ (32 * n))]

theorem val_eq_sum_words (x : Reg) :
    val x = ∑ i ∈ Finset.range 12, (getWord x i).toNat * 2 ^ (32 * i) := by
  rw [sum_words_eq_mod, Nat.mod_eq_of_lt x.isLt]

theorem wide_eq_append_toNat (a b : Reg) : wide (val a) (val b) = (b ++ a).toNat := by
  rw [BitVec.toNat_append, ← Nat.shiftLeft_add_eq_or_of_lt a.isLt, Nat.shiftLeft_eq, wide]

/-- Settles O34: twelve words hold all 384 bits, and OPB stands 384 bits above OPA. -/
theorem valueIsTheSumOfTheWords : Obligations.ValueIsTheSumOfTheWords :=
  ⟨val_eq_sum_words, wide_eq_append_toNat⟩

end Sys2Proof.Machine
end

section
/-! PROOFS. R26's invariants: what each operation keeps, each step, and every run from reset: O21. -/

namespace Sys2Proof.Machine

/-- R26 (d)'s list is the list of opcodes that name commands (R45). -/
theorem Opcode.mem_lop_list_iff {x : OpBits} :
    (x = 1 ∨ x = 2 ∨ x = 3 ∨ x = 4 ∨ x = 5) ↔ ∃ op : Opcode, x = op.bits := by
  rw [Opcode.exists_bits_iff]
  revert x
  decide

/-- Every result is a remainder modulo p (R56). -/
theorem result_lt_p (op : Opcode) (A B : Nat) : result op A B < Config.p := by
  have hp : 0 < Config.p := Config.one_lt_p.pos
  cases op <;> exact Nat.mod_lt _ hp

theorem toNat_ofNat_lt_p {v : Nat} (h : v < Config.p) : (BitVec.ofNat 384 v).toNat < Config.p := by
  rw [BitVec.toNat_ofNat]
  exact (Nat.mod_le ..).trans_lt h

theorem zero_toNat_lt_p : (0 : Reg).toNat < Config.p := by
  rw [BitVec.ofNat_eq_ofNat, BitVec.toNat_zero]
  exact Config.one_lt_p.pos

namespace State.Inv

variable {s t : State}

theorem reset : State.reset.Inv where
  errIffCode := by decide
  codeLegal := .inl rfl
  resCanonical := zero_toNat_lt_p
  busyLop := nofun

/-- R26 speaks of ERR, ERRCODE, RES, BUSY and LOP alone. -/
theorem of_eq (h : s.Inv) (herr : t.err = s.err) (hcode : t.errcode = s.errcode) (hres : t.res = s.res)
    (hbusy : t.busy = s.busy) (hlop : t.lop = s.lop) : t.Inv where
  errIffCode := by rw [herr, hcode]; exact h.errIffCode
  codeLegal := by rw [hcode]; exact h.codeLegal
  resCanonical := by rw [hres]; exact h.resCanonical
  busyLop := by rw [hbusy, hlop]; exact h.busyLop

theorem withEvents (h : s.Inv) (es : List Event) : (s.withEvents es).Inv := h.of_eq rfl rfl rfl rfl rfl

/-- A first error takes its code from R25; a later one keeps the code recorded. -/
theorem raiseErr (h : s.Inv) {code : ErrCode} (hcode : code = 1 ∨ code = 2 ∨ code = 3) :
    (s.raiseErr code).Inv where
  errIffCode := by
    cases he : s.err with
    | false => rcases hcode with rfl | rfl | rfl <;> simp [he]
    | true => simpa [he] using h.errIffCode
  codeLegal := by
    cases he : s.err with
    | false => simpa [he] using Or.inr hcode
    | true => simpa [he] using h.codeLegal
  resCanonical := h.resCanonical
  busyLop := h.busyLop

theorem accept (h : s.Inv) (op : Opcode) : (s.accept op.bits).Inv where
  errIffCode := by simp
  codeLegal := .inl rfl
  resCanonical := h.resCanonical
  busyLop _ := Opcode.mem_lop_list_iff.2 ⟨op, rfl⟩

theorem startRequest (h : s.Inv) (x : OpBits) : (s.startRequest x).Inv := by
  rcases s.startRequest_cases x with ⟨_, e⟩ | ⟨_, _, e⟩ | ⟨_, ⟨op, rfl⟩, e⟩ <;> rw [e]
  · exact h.raiseErr (.inr (.inr rfl))
  · exact h.raiseErr (.inl rfl)
  · exact h.accept op

theorem clearErr (h : s.Inv) : s.clearErr.Inv where
  errIffCode := by simp
  codeLegal := .inl rfl
  resCanonical := h.resCanonical
  busyLop := h.busyLop

theorem statusWrite (h : s.Inv) (v : Word) : (s.statusWrite v).Inv := by
  have hdone : (if v.getLsbD 1 then s.clearDone else s).Inv := by
    split
    · exact h.of_eq rfl rfl rfl rfl rfl
    · exact h
  unfold State.statusWrite
  dsimp only
  split
  · exact hdone.clearErr
  · exact hdone

theorem finish (h : s.Inv) (ok : Bool) {v : Nat} (hv : v < Config.p) : (s.finish ok v).Inv := by
  have herr : (bif ok then s else s.raiseErr operandRange).Inv := by
    cases ok
    · exact h.raiseErr (.inr (.inl rfl))
    · exact h
  refine ⟨herr.errIffCode, herr.codeLegal, ?_, nofun⟩
  rw [finish_res]
  cases ok
  · exact zero_toNat_lt_p
  · exact toNat_ofNat_lt_p hv

theorem applyReset (s : State) : s.applyReset.Inv := reset.of_eq rfl rfl rfl rfl rfl

/-- Every kind of turn keeps R26's invariants. -/
theorem step (h : s.Inv) (hstep : Machine.step s = .next t) : t.Inv := by
  rcases step_cases hstep with
    ⟨_, _, rfl⟩ | ⟨_, op, _, rfl⟩ | ⟨es, _, rfl⟩ | ⟨_, es, _, _, _, rfl⟩ | ⟨_, es, _, _, rfl⟩ | ⟨v, es, _, _, rfl⟩ |
    ⟨v, es, _, rfl⟩ | ⟨_, _, es, _, _, rfl⟩ | ⟨_, _, es, _, _, rfl⟩
  · exact h.withEvents _
  · exact (h.withEvents _).finish _ (result_lt_p op _ _)
  · exact applyReset _
  · exact h.of_eq rfl rfl rfl rfl rfl
  · exact h.of_eq rfl rfl rfl rfl rfl
  · have hctrl : (((s.withEvents es).respond .completes).setCtrl (ctrlOp v) (ctrlIe v)).Inv := h.of_eq rfl rfl rfl rfl rfl
    exact hctrl.startRequest _
  · have hresp : ((s.withEvents es).respond .completes).Inv := h.of_eq rfl rfl rfl rfl rfl
    exact hresp.statusWrite v
  · exact h.of_eq rfl rfl rfl rfl rfl
  · exact h.of_eq rfl rfl rfl rfl rfl

/-- The engine's turn answers a next state: with BUSY = 1, R26 (d) gives LOP a command to complete. -/
theorem exists_step_of_engineNext (h : s.Inv) (he : s.engineNext) : ∃ t, Machine.step s = .next t := by
  cases hb : s.busy with
  | false => exact ⟨_, step_idle he hb⟩
  | true =>
    obtain ⟨op, hop⟩ := Opcode.mem_lop_list_iff.1 (h.busyLop hb)
    exact ⟨_, step_complete ⟨hb, he⟩ hop⟩

/-- The machine does not stop in a state that meets the invariants. -/
theorem exists_step (h : s.Inv) : ∃ t, Machine.step s = .next t := by
  cases hs : s.events with
  | nil => exact h.exists_step_of_engineNext (.inl hs)
  | cons e es =>
    cases e with
    | host a => exact step_host_next hs
    | engine => exact h.exists_step_of_engineNext (.inr ⟨es, hs⟩)
    | reset => exact ⟨_, step_reset hs⟩

/-- Progress and preservation together, over a run of any length. -/
theorem exists_runSteps (h : s.Inv) (k : Nat) : ∃ t, runSteps k s = .next t ∧ t.Inv := by
  induction k generalizing s with
  | zero => exact ⟨s, runSteps_zero s, h⟩
  | succ k ih =>
    obtain ⟨u, hu⟩ := h.exists_step
    rw [runSteps_succ hu]
    exact ih (h.step hu)

end State.Inv

/-- Settles O21: reset meets the invariants whatever turns are placed, and from such a state every run goes on and keeps them. -/
theorem reachableStatesMeetTheInvariant : Obligations.ReachableStatesMeetTheInvariant :=
  fun es k => (State.Inv.reset.withEvents es).exists_runSteps k

end Sys2Proof.Machine
end

section
/-! PROOFS. The host's writes to CTRL (R21), and O15. -/

namespace Sys2Proof.Machine

namespace State

/-- A START request, accepted or rejected, leaves OP, IE, the operands and RES alone (R52, R53). -/
theorem startRequest_frame (s : State) (x : OpBits) :
    (s.startRequest x).op = s.op ∧ (s.startRequest x).ie = s.ie ∧ (s.startRequest x).opa = s.opa ∧
      (s.startRequest x).opb = s.opb ∧ (s.startRequest x).res = s.res := by
  rcases s.startRequest_cases x with ⟨_, e⟩ | ⟨_, _, e⟩ | ⟨_, _, e⟩ <;> rw [e] <;> exact ⟨rfl, rfl, rfl, rfl, rfl⟩

theorem startRequest_of_busy {s : State} (h : s.busy = true) (x : OpBits) : s.startRequest x = s.reject startBusy :=
  if_pos h

/-- The word CTRL reads as, as a number: IE at bit 16, OP below it (R21). -/
theorem ctrlWord_eq_ofNat (s : State) : s.ctrlWord = BitVec.ofNat 32 (s.ie.toNat * 2 ^ 16 + s.op.toNat) := by
  unfold ctrlWord
  generalize s.op = x
  cases s.ie <;> revert x <;> decide

theorem busRead_ctrl (s : State) : s.busRead 0x000 4 = .data s.ctrlWord := rfl

end State

section CtrlWrite

variable {s : State} {es : List Event} {v : Word}

/-- With START = 0 a CTRL write stores OP and IE and does nothing else. -/
theorem step_ctrl_of_no_start (h : s.events = .host (.write 0x000 4 0xF v) :: es) (hv : ctrlStart v = false) :
    step s = .next (((s.withEvents es).respond .completes).setCtrl (ctrlOp v) (ctrlIe v)) := by
  rw [step_ctrl h, State.ctrlWrite_eq, hv, if_neg Bool.false_ne_true]

/-- With START = 1 it makes, in the same step, the START request of the OP it stored. -/
theorem step_ctrl_of_start (h : s.events = .host (.write 0x000 4 0xF v) :: es) (hv : ctrlStart v = true) :
    step s = .next ((((s.withEvents es).respond .completes).setCtrl (ctrlOp v) (ctrlIe v)).startRequest (ctrlOp v)) := by
  rw [step_ctrl h, State.ctrlWrite_eq, hv, if_pos rfl, State.startCommand]

/-- What a CTRL write stores and what it leaves alone, whatever its START bit; a command in flight keeps its latches. -/
theorem exists_step_ctrl (h : s.events = .host (.write 0x000 4 0xF v) :: es) :
    ∃ t, step s = .next t ∧ t.op = ctrlOp v ∧ t.ie = ctrlIe v ∧ t.opa = s.opa ∧ t.opb = s.opb ∧ t.res = s.res ∧
      (s.busy = true → t.lop = s.lop ∧ t.la = s.la ∧ t.lb = s.lb ∧ t.busy = true) := by
  cases hv : ctrlStart v with
  | false => exact ⟨_, step_ctrl_of_no_start h hv, rfl, rfl, rfl, rfl, rfl, fun hb => ⟨rfl, rfl, rfl, hb⟩⟩
  | true =>
    obtain ⟨hop, hie, hopa, hopb, hres⟩ :=
      (((s.withEvents es).respond .completes).setCtrl (ctrlOp v) (ctrlIe v)).startRequest_frame (ctrlOp v)
    refine ⟨_, step_ctrl_of_start h hv, hop, hie, hopa, hopb, hres, fun hb => ?_⟩
    rw [State.startRequest_of_busy (by simpa using hb)]
    exact ⟨rfl, rfl, rfl, hb⟩

end CtrlWrite

/-- Settles O15: the three clauses on a write are the three lemmas above; the word read back is a number of its two fields. -/
theorem ctrlWriteStoresOpAndIe : Obligations.CtrlWriteStoresOpAndIe :=
  ⟨fun _ _ _ h => ⟨step_ctrl_of_no_start h, step_ctrl_of_start h, exists_step_ctrl h⟩,
    fun s => s.busRead_ctrl.trans (congrArg Response.data s.ctrlWord_eq_ofNat), rfl, rfl⟩

end Sys2Proof.Machine
end

section
/-! PROOFS. The host's writes to STATUS, and the completion right after one (R23): O31. -/

namespace Sys2Proof.Machine

/-- A STATUS write as one update of the three fields it can clear. -/
theorem State.statusWrite_eq (s : State) (v : Word) :
    s.statusWrite v = { s with
      done := if v.getLsbD 1 then false else s.done
      err := if v.getLsbD 2 then false else s.err
      errcode := if v.getLsbD 2 then 0 else s.errcode } := by
  unfold statusWrite
  cases v.getLsbD 1 <;> cases v.getLsbD 2 <;> rfl

theorem runSteps_one (s : State) : runSteps 1 s = step s := by
  cases hs : step s <;> simp [runSteps, hs]

/-- A completion that answers a next state is that of the command LOP names (R55). -/
theorem eq_finish_of_completes {s t : State} (hc : s.completes) (h : step s = .next t) :
    ∃ op : Opcode, s.lop = op.bits ∧
      t = (s.withEvents s.events.tail).finish (inRange op (val s.la) (val s.lb)) (result op (val s.la) (val s.lb)) := by
  rw [step_completes hc] at h
  rcases (s.withEvents s.events.tail).complete_cases with ⟨op, hop, e⟩ | ⟨_, e⟩ <;> rw [e] at h <;> cases h
  exact ⟨op, hop, rfl⟩

/-- A completion sets DONE, and ERR when the operands it latched were out of range, whatever the flags were. -/
theorem flags_set_of_completes {s t : State} (hc : s.completes) (h : step s = .next t) :
    t.done = true ∧
      ∀ op : Opcode, s.lop = op.bits → inRange op (val s.la) (val s.lb) = false → t.err = true := by
  obtain ⟨op, hop, rfl⟩ := eq_finish_of_completes hc h
  refine ⟨State.finish_done .., fun op' hop' hr => ?_⟩
  obtain rfl := Opcode.bits_injective (hop.symm.trans hop')
  simp [hr]

/-- A STATUS write with the engine's turn behind it leaves a command in flight, its latches untouched, about to complete. -/
theorem completes_of_step_status {s u : State} {es : List Event} {v : Word} (hb : s.busy = true)
    (h : s.events = .host (.write 0x004 4 0xF v) :: .engine :: es) (hu : step s = .next u) :
    u.completes ∧ u.lop = s.lop ∧ u.la = s.la ∧ u.lb = s.lb := by
  rw [step_status h] at hu
  cases hu
  exact ⟨⟨by simpa using hb, .inr ⟨es, by simp⟩⟩, by simp, by simp, by simp⟩

/-- Settles O31: the write is one update of the state, and the completion after it sets its flags whatever they were. -/
theorem statusWriteClearsOnly : Obligations.StatusWriteClearsOnly := by
  refine ⟨fun s es v h => (step_status h).trans (congrArg _ (State.statusWrite_eq ..)), fun s t es v hb h hrun => ?_⟩
  obtain ⟨hc, hlop, hla, hlb⟩ := completes_of_step_status hb h (step_status h)
  rw [runSteps_succ (step_status h), runSteps_one] at hrun
  rw [← hlop, ← hla, ← hlb]
  exact flags_set_of_completes hc hrun

end Sys2Proof.Machine
end

section
/-! PROOFS. The host's reads of the register window (R35): what each offset returns, and O28. -/

namespace Sys2Proof.Machine

namespace State

/-- The word STATUS reads as, as a number: ERRCODE at bit 8, then ERR, DONE and BUSY (R22). -/
theorem statusWord_eq_ofNat (s : State) :
    s.statusWord = BitVec.ofNat 32 (s.errcode.toNat * 2 ^ 8 + s.err.toNat * 2 ^ 2 + s.done.toNat * 2 + s.busy.toNat) := by
  unfold statusWord
  generalize s.errcode = code
  cases s.err <;> cases s.done <;> cases s.busy <;> revert code <;> decide

theorem busRead_status (s : State) : s.busRead 0x004 4 = .data s.statusWord := rfl

/-- The offset of word i of a register gives the number i back. -/
theorem wordIndex_eq (reg i : Nat) : (reg + 4 * i - reg) / 4 = i := by omega

theorem busRead_opa (s : State) {i : Nat} (hi : i < 12) : s.busRead (0x100 + 4 * i) 4 = .data (getWord s.opa i) := by
  rw [busRead, if_neg (by omega), if_neg (by omega), if_neg (by omega), if_pos (by omega), wordIndex_eq]

theorem busRead_opb (s : State) {i : Nat} (hi : i < 12) : s.busRead (0x140 + 4 * i) 4 = .data (getWord s.opb i) := by
  rw [busRead, if_neg (by omega), if_neg (by omega), if_neg (by omega), if_neg (by omega), if_pos (by omega),
    wordIndex_eq]

theorem busRead_res (s : State) {i : Nat} (hi : i < 12) : s.busRead (0x180 + 4 * i) 4 = .data (getWord s.res i) := by
  rw [busRead, if_neg (by omega), if_neg (by omega), if_neg (by omega), if_neg (by omega), if_neg (by omega),
    if_pos (by omega), wordIndex_eq]

theorem busRead_of_not_aligned_word (s : State) {off sz : Nat} (h : sz ≠ 4 ∨ off % 4 ≠ 0) :
    s.busRead off sz = .busError off :=
  if_pos h

/-- In the gaps between the registers, and past RES, a read of any size gets a bus error (R31, R35). -/
theorem busRead_of_reserved (s : State) {off : Nat} (sz : Nat)
    (h : (8 ≤ off ∧ off < 0x100) ∨ (0x130 ≤ off ∧ off < 0x140) ∨ (0x170 ≤ off ∧ off < 0x180) ∨ 0x1B0 ≤ off) :
    s.busRead off sz = .busError off := by
  by_cases hw : sz ≠ 4 ∨ off % 4 ≠ 0
  · exact s.busRead_of_not_aligned_word hw
  · rw [busRead, if_neg hw, if_neg (by omega), if_neg (by omega), if_neg (by omega), if_neg (by omega),
      if_neg (by omega)]

end State

/-- Two reads of one offset with no step between record the same response: the first changes nothing a read sees. -/
theorem runSteps_two_reads {s : State} {es : List Event} {off sz : Nat}
    (h : s.events = .host (.read off sz) :: .host (.read off sz) :: es) :
    runSteps 2 s = .next (((s.withEvents es).respond (s.busRead off sz)).respond (s.busRead off sz)) :=
  runSteps_two (step_read h) (step_read rfl)

/-- Settles O28: the step records what `busRead` answers and nothing else, and each clause is one case of `busRead`. -/
theorem busReadReturnsTheRegisterWord : Obligations.BusReadReturnsTheRegisterWord := by
  refine ⟨fun s es off sz h => ⟨s.busRead off sz, step_read h, s.busRead_of_not_aligned_word, ?ctrl, ?status, ?opa, ?opb,
    ?res, s.busRead_of_reserved sz⟩, fun s es off sz h => ⟨s.busRead off sz, runSteps_two_reads h⟩⟩
  case ctrl => rintro rfl rfl; rw [s.busRead_ctrl, s.ctrlWord_eq_ofNat]
  case status => rintro rfl rfl; rw [s.busRead_status, s.statusWord_eq_ofNat]
  case opa => rintro i hi rfl rfl; exact s.busRead_opa hi
  case opb => rintro i hi rfl rfl; exact s.busRead_opb hi
  case res => rintro i hi rfl rfl; exact s.busRead_res hi

end Sys2Proof.Machine
end

section
/-! PROOFS. The decoder of a CTRL write by mask and match (R46, R48): O2 and O3. -/

namespace Sys2Proof

open Machine (Opcode)

/-- Two words agree under a mask exactly when they agree on every bit the mask sets. -/
theorem and_eq_and_iff_getLsbD {n : Nat} {w v mask : BitVec n} :
    w &&& mask = v &&& mask ↔ ∀ k, mask.getLsbD k = true → w.getLsbD k = v.getLsbD k := by
  constructor
  · intro h k hk
    simpa [hk] using congrArg (·.getLsbD k) h
  · intro h
    refine BitVec.eq_of_getLsbD_eq fun k _ => ?_
    cases hk : mask.getLsbD k with
    | false => simp [hk]
    | true => simp [hk, h k hk]

/-- The mask of R46's rows covers OP and START. -/
theorem getLsbD_rowMask (k : Nat) : (0x0000010F : Word).getLsbD k = true ↔ k < 4 ∨ k = 8 := by
  by_cases hk : k < 32
  · revert k; decide
  · have hge : 32 ≤ k := Nat.not_lt.1 hk
    rw [BitVec.getLsbD_of_ge _ _ hge]
    exact iff_of_false Bool.false_ne_true (by omega)

/-- The mask of R46's exact words covers OP, START and IE. -/
theorem getLsbD_wordMask (k : Nat) : (0x0001010F : Word).getLsbD k = true ↔ k < 4 ∨ k = 8 ∨ k = 16 := by
  by_cases hk : k < 32
  · revert k; decide
  · have hge : 32 ≤ k := Nat.not_lt.1 hk
    rw [BitVec.getLsbD_of_ge _ _ hge]
    exact iff_of_false Bool.false_ne_true (by omega)

theorem ctrlOp_eq_iff {w v : Word} : ctrlOp w = ctrlOp v ↔ ∀ k < 4, w.getLsbD k = v.getLsbD k := by
  constructor
  · intro h k hk
    simpa [ctrlOp, BitVec.getLsbD_extractLsb', hk] using congrArg (·.getLsbD k) h
  · intro h
    refine BitVec.eq_of_getLsbD_eq fun k hk => ?_
    simp [ctrlOp, BitVec.getLsbD_extractLsb', h k hk]

theorem and_rowMask_eq_iff {w v : Word} :
    w &&& 0x0000010F = v &&& 0x0000010F ↔ ctrlStart w = ctrlStart v ∧ ctrlOp w = ctrlOp v := by
  simp only [and_eq_and_iff_getLsbD, getLsbD_rowMask, or_imp, forall_and, forall_eq, ctrlOp_eq_iff, ctrlStart]
  exact and_comm

theorem and_wordMask_eq_iff {w v : Word} :
    w &&& 0x0001010F = v &&& 0x0001010F ↔ ctrlStart w = ctrlStart v ∧ ctrlOp w = ctrlOp v ∧ ctrlIe w = ctrlIe v := by
  simp only [and_eq_and_iff_getLsbD, getLsbD_wordMask, or_imp, forall_and, forall_eq, ctrlOp_eq_iff, ctrlStart, ctrlIe]
  exact and_left_comm

theorem rowWord (i : Instr) : Laws.RowWord.Statement i := by
  cases i with
  | mmul ie => exact Laws.RowWord.mmul ie
  | msqr ie => exact Laws.RowWord.msqr ie
  | mredc ie => exact Laws.RowWord.mredc ie
  | tomont ie => exact Laws.RowWord.tomont ie
  | frommont ie => exact Laws.RowWord.frommont ie

theorem encode_and_rowMask (i : Instr) : encode i &&& 0x0000010F = Laws.RowWord.rowMatch i := by
  obtain ⟨hrow, -⟩ := rowWord i
  exact hrow

@[simp] theorem ctrlIe_encode (i : Instr) : ctrlIe (encode i) = i.ie := by
  obtain ⟨-, hie, -⟩ := rowWord i
  exact hie

/-- The encoder sets no bit that R48 ignores. -/
theorem encode_and_wordMask (i : Instr) : encode i &&& 0x0001010F = encode i := by
  rcases i with ie | ie | ie | ie | ie <;> cases ie <;> decide

@[simp] theorem ctrlStart_encode (i : Instr) : ctrlStart (encode i) = true := by
  rcases i with ie | ie | ie | ie | ie <;> cases ie <;> decide

@[simp] theorem ctrlOp_encode (i : Instr) : ctrlOp (encode i) = i.opcode.bits := by
  rcases i with ie | ie | ie | ie | ie <;> cases ie <;> decide

/-- A word decodes to a command exactly when its three live fields are the command's. -/
theorem decode_eq_command_iff {w : Word} {i : Instr} :
    decode w = .command i ↔ ctrlStart w = true ∧ ctrlOp w = i.opcode.bits ∧ ctrlIe w = i.ie := by
  refine ⟨decode_command, fun ⟨hstart, hop, hie⟩ => ?_⟩
  rw [decode_of_start hstart hop, hie, Instr.ofOpcode_eta]

theorem decode_encode (i : Instr) : decode (encode i) = .command i := by
  simp [decode_eq_command_iff]

/-- The three live fields of w are those of `encode i` exactly when the two words agree on the live bits. -/
theorem decode_eq_command_iff_and_wordMask (w : Word) (i : Instr) :
    decode w = .command i ↔ w &&& 0x0001010F = encode i := by
  rw [← encode_and_wordMask i, and_wordMask_eq_iff, decode_eq_command_iff]
  simp

/-- A row leaves IE free, so START and OP alone select its mnemonic (R46). -/
theorem exists_decode_iff_and_rowMask (op : Opcode) (w : Word) :
    (∃ ie, decode w = .command (Instr.ofOpcode op ie)) ↔
      w &&& 0x0000010F = Laws.RowWord.rowMatch (Instr.ofOpcode op false) := by
  rw [← encode_and_rowMask, and_rowMask_eq_iff]
  simp [decode_eq_command_iff]

/-- The decoder reads START, OP and IE and nothing else (R48). -/
theorem decode_eq_of_and_wordMask_eq {w v : Word} (h : w &&& 0x0001010F = v &&& 0x0001010F) : decode w = decode v := by
  obtain ⟨hstart, hop, hie⟩ := and_wordMask_eq_iff.1 h
  rw [decode, decode, hstart, hop, hie]

/-- Settles O2: mask and match compare the live fields of two words, and a word decodes by its live fields. -/
theorem wordSelectsCommandExactlyByMask : Obligations.WordSelectsCommandExactlyByMask :=
  ⟨decode_encode, decode_eq_command_iff_and_wordMask, exists_decode_iff_and_rowMask .mmul,
    exists_decode_iff_and_rowMask .msqr, exists_decode_iff_and_rowMask .mredc, exists_decode_iff_and_rowMask .tomont,
    exists_decode_iff_and_rowMask .frommont, rfl, rfl, rfl, rfl, rfl, rfl, rfl, rfl, rfl, rfl⟩

/-- A step that is a CTRL write stores bit 16 in IE, whatever the word decodes to (R48). -/
theorem ie_of_step_ctrlWrite {s t : Machine.State} {v : Word} (hw : s.writesNext 0x000 v)
    (h : Machine.step s = .next t) : t.ie = ctrlIe v := by
  obtain ⟨es, hs⟩ := hw
  obtain ⟨u, hu, -, hie, -⟩ := Machine.exists_step_ctrl hs
  rw [h] at hu
  cases hu
  exact hie

/-- Settles O3: one case per START and OP, the live fields for the reserved bits, and the CTRL write's own IE. -/
theorem decoderIsTotalAndIgnoresReservedBits : Obligations.DecoderIsTotalAndIgnoresReservedBits :=
  ⟨fun _ => decode_of_no_start,
    fun _ hstart => ⟨decode_of_start (op := .mmul) hstart, decode_of_start (op := .msqr) hstart,
      decode_of_start (op := .mredc) hstart, decode_of_start (op := .tomont) hstart,
      decode_of_start (op := .frommont) hstart, fun h => decode_of_reserved hstart (Opcode.ofBits_eq_none.2 h)⟩,
    fun _ _ => decode_eq_of_and_wordMask_eq, fun _ _ _ => ie_of_step_ctrlWrite⟩

end Sys2Proof
end

section
/-! PROOFS. The range predicate of each command (R54), and O12. -/

namespace Sys2Proof.Machine

theorem canonical_iff {v : Nat} : canonical v = true ↔ v < Config.p := decide_eq_true_iff

theorem inRange_mmul_iff {A B : Nat} : inRange .mmul A B = true ↔ A < Config.p ∧ B < Config.p := by
  rw [inRange, inRangeMmul, Bool.and_eq_true, canonical_iff, canonical_iff]

theorem inRange_msqr_iff {A B : Nat} : inRange .msqr A B = true ↔ A < Config.p := canonical_iff

theorem inRange_mredc_iff {A B : Nat} : inRange .mredc A B = true ↔ wide A B < Config.p * 2 ^ 384 := by
  rw [inRange, inRangeMredc, decide_eq_true_iff]

theorem inRange_tomont_iff {A B : Nat} : inRange .tomont A B = true ↔ A < Config.p := canonical_iff

theorem inRange_frommont_iff {A B : Nat} : inRange .frommont A B = true ↔ A < Config.p := canonical_iff

/-- T < p·2^384 compares the upper halves, because the lower half of T is below 2^384. -/
theorem wide_lt_iff {A B : Nat} (hA : A < 2 ^ 384) : wide A B < Config.p * 2 ^ 384 ↔ B < Config.p := by
  have hpos : 0 < 2 ^ 384 := Nat.zero_lt_of_lt hA
  have hdiv : wide A B / 2 ^ 384 = B := by
    rw [wide, Nat.add_comm, Nat.add_mul_div_right _ _ hpos, Nat.div_eq_of_lt hA, Nat.zero_add]
  rw [← Nat.div_lt_iff_lt_mul hpos, hdiv]

theorem inRange_mredc_iff_of_lt {A B : Nat} (hA : A < 2 ^ 384) : inRange .mredc A B = true ↔ B < Config.p :=
  inRange_mredc_iff.trans (wide_lt_iff hA)

/-- Every command but MREDC needs its first operand below p. -/
theorem inRange_eq_false_of_le {op : Opcode} (hop : op ≠ .mredc) {A : Nat} (hA : Config.p ≤ A) (B : Nat) :
    inRange op A B = false := by
  rw [← Bool.not_eq_true]
  cases op with
  | mmul => exact fun h => (inRange_mmul_iff.1 h).1.not_ge hA
  | msqr => exact fun h => (inRange_msqr_iff.1 h).not_ge hA
  | mredc => exact absurd rfl hop
  | tomont => exact fun h => (inRange_tomont_iff.1 h).not_ge hA
  | frommont => exact fun h => (inRange_frommont_iff.1 h).not_ge hA

/-- Settles O12: one lemma per command, and MREDC's second reading. -/
theorem rangePredicatesAsStated : Obligations.RangePredicatesAsStated :=
  fun _ _ => ⟨inRange_mmul_iff, inRange_msqr_iff, inRange_mredc_iff, inRange_tomont_iff, inRange_frommont_iff,
    inRange_mredc_iff_of_lt⟩

end Sys2Proof.Machine
end

section
/-! PROOFS. The completion step (R55, R56, R57): O16, O17 and O18. -/

namespace Sys2Proof.Machine

/-- The 384 bits of RES hold every result whole (R56). -/
theorem toNat_ofNat_result (op : Opcode) (A B : Nat) : (BitVec.ofNat 384 (result op A B)).toNat = result op A B := by
  rw [BitVec.toNat_ofNat]
  exact Nat.mod_eq_of_lt ((result_lt_p op A B).trans (by decide +kernel))

section Completion

variable {s : State} {op : Opcode}

theorem step_complete_in_range (hc : s.completes) (hop : s.lop = op.bits)
    (hr : inRange op s.la.toNat s.lb.toNat = true) :
    step s = .next { s with
      events := s.events.tail, res := BitVec.ofNat 384 (result op s.la.toNat s.lb.toNat), done := true, busy := false } := by
  rw [step_complete hc hop, hr]
  rfl

theorem step_complete_out_of_range (hc : s.completes) (hop : s.lop = op.bits)
    (hr : inRange op s.la.toNat s.lb.toNat = false) :
    step s = .next { s with
      events := s.events.tail, res := 0, done := true, busy := false
      err := true, errcode := bif s.err then s.errcode else 0x2 } := by
  rw [step_complete hc hop, hr]
  rfl

end Completion

/-- Settles O16: a completion by the outcome of its range check, and the engine's turn with nothing in flight. -/
theorem completionWritesResultAndFlags : Obligations.CompletionWritesResultAndFlags :=
  ⟨fun _ _ hc hop => ⟨step_complete_in_range hc hop, step_complete_out_of_range hc hop⟩, fun _ => step_idle⟩

/-- Settles O17: RES takes the result, which is a remainder modulo p and fits, or 0. -/
theorem resultWrittenIsCanonical : Obligations.ResultWrittenIsCanonical := by
  intro s t op hc hop h
  cases hr : inRange op s.la.toNat s.lb.toNat with
  | true =>
    rw [step_complete_in_range hc hop hr] at h
    cases h
    exact ⟨toNat_ofNat_lt_p (result_lt_p op _ _), fun _ => toNat_ofNat_result op _ _, nofun⟩
  | false =>
    rw [step_complete_out_of_range hc hop hr] at h
    cases h
    exact ⟨zero_toNat_lt_p, nofun, fun _ => rfl⟩

/-- Settles O18: both completions are `finish` of the one command, range check and result that the equal latches give. -/
theorem completionDependsOnLatchesOnly : Obligations.CompletionDependsOnLatchesOnly := by
  intro s t s' t' hs ht hlop hla hlb hs' ht'
  obtain ⟨op, hop, rfl⟩ := eq_finish_of_completes hs hs'
  rw [step_complete ht (hlop.symm.trans hop), ← hla, ← hlb] at ht'
  cases ht'
  exact ⟨by simp, inRange op (val s.la) (val s.lb), by simp, by simp⟩

end Sys2Proof.Machine
end

section
/-! PROOFS. The START request of a CTRL write (R52, R53): O14. -/

namespace Sys2Proof.Machine

/-- A CTRL write with START = 1 is the operation that `exec` runs for a command word, here for every OP. -/
theorem step_ctrl_eq_startCommand {s : State} {es : List Event} {v : Word}
    (h : s.events = .host (.write 0x000 4 0xF v) :: es) (hv : ctrlStart v = true) :
    step s = .next (((s.withEvents es).respond .completes).startCommand (ctrlOp v) (ctrlIe v)) :=
  step_ctrl_of_start h hv

/-- Settles O14: the busy check, the opcode check and acceptance, in this order. -/
theorem startRequestAcceptsOrRejects : Obligations.StartRequestAcceptsOrRejects := by
  intro s es v h hv
  have hstep := step_ctrl_eq_startCommand h hv
  refine ⟨fun hb => hstep.trans ?busy, fun hb hop => hstep.trans ?reserved, fun hb hlo hhi => hstep.trans ?accepted⟩
  case busy =>
    rw [State.startCommand_of_busy (by simpa using hb)]
    rfl
  case reserved =>
    have hnone : Opcode.ofBits (ctrlOp v) = none := Opcode.ofBits_eq_none.2 hop
    rw [State.startCommand_of_reserved (by simpa using hb) hnone]
    rfl
  case accepted =>
    obtain ⟨op, hop⟩ : ∃ op : Opcode, ctrlOp v = op.bits := Opcode.exists_bits_iff.2 ⟨hlo, hhi⟩
    rw [hop, State.startCommand_of_legal (by simpa using hb), ← hop]
    rfl

end Sys2Proof.Machine
end

section
/-! PROOFS. The commands' results in ZMod p, where R is a unit with inverse R⁻¹ (R58 to R62), and the laws of R64: O13. -/

namespace Sys2Proof.Config

theorem cast_R_mul_cast_Rinv : (R : ZMod p) * (Rinv : ZMod p) = 1 := by
  rw [← Nat.cast_mul, ← Nat.cast_one, ZMod.natCast_eq_natCast_iff, ← mod_p_eq_one_iff, R_mul_Rinv_mod]

@[simp] theorem cast_RmodP : (RmodP : ZMod p) = R := by
  rw [RmodP_eq, ZMod.natCast_mod]

@[simp] theorem cast_R2modP : (R2modP : ZMod p) = R * R := by
  rw [R2modP_eq, ZMod.natCast_mod, Nat.cast_mul]

@[simp] theorem cast_p_sub {n : Nat} (h : n ≤ p) : ((p - n : Nat) : ZMod p) = -n := by
  rw [Nat.cast_sub h, ZMod.natCast_self, zero_sub]

/-- p − 1 stands for −1. -/
@[simp] theorem cast_p_sub_one : ((p - 1 : Nat) : ZMod p) = -1 := by
  rw [cast_p_sub one_lt_p.le, Nat.cast_one]

theorem RmodP_lt_p : RmodP < p := by decide +kernel

theorem p_sub_lt_p {n : Nat} (h : 0 < n) : p - n < p := Nat.sub_lt one_lt_p.pos h

theorem p_sub_Rinv_lt_p : p - Rinv < p := p_sub_lt_p (by decide +kernel)

theorem p_sub_RmodP_lt_p : p - RmodP < p := p_sub_lt_p (by decide +kernel)

end Sys2Proof.Config

namespace Sys2Proof.Machine

open Config (cast_R_mul_cast_Rinv)

@[simp] theorem cast_mmul (A B : Nat) : (result .mmul A B : ZMod Config.p) = A * B * Config.Rinv := by
  rw [result, resultMmul, ZMod.natCast_mod, Nat.cast_mul, Nat.cast_mul]

@[simp] theorem cast_mredc (A B : Nat) : (result .mredc A B : ZMod Config.p) = wide A B * Config.Rinv := by
  rw [result, resultMredc, ZMod.natCast_mod, Nat.cast_mul]

@[simp] theorem cast_tomont (A B : Nat) : (result .tomont A B : ZMod Config.p) = A * Config.R := by
  rw [result, resultTomont, ← Config.R, ZMod.natCast_mod, Nat.cast_mul]

@[simp] theorem cast_frommont (A B : Nat) : (result .frommont A B : ZMod Config.p) = A * Config.Rinv := by
  rw [result, resultFrommont, ZMod.natCast_mod, Nat.cast_mul]

/-- A result is the one canonical value of its residue class. -/
theorem result_eq_of_cast_eq {op : Opcode} {A B v : Nat} (hv : v < Config.p)
    (h : (result op A B : ZMod Config.p) = v) : result op A B = v :=
  ((ZMod.natCast_eq_natCast_iff ..).1 h).eq_of_lt_of_lt (result_lt_p op A B) hv

/-- The halves of a 768-bit value put together again are the value. -/
theorem wide_mod_div (n : Nat) : wide (n % 2 ^ 384) (n / 2 ^ 384) = n := Nat.div_add_mod' n _

@[simp] theorem wide_zero (A : Nat) : wide A 0 = A := by rw [wide, Nat.zero_mul, Nat.zero_add]

theorem mmul_comm (x y : Nat) : result .mmul x y = result .mmul y x :=
  congrArg (· * Config.Rinv % Config.p) (Nat.mul_comm x y)

theorem mmul_assoc (x y z : Nat) :
    result .mmul (result .mmul x y) z = result .mmul x (result .mmul y z) := by
  refine result_eq_of_cast_eq (result_lt_p ..) ?_
  simp only [cast_mmul]
  ring

/-- R mod p, the Montgomery form of 1, is the unit. -/
theorem mmul_RmodP {x : Nat} (hx : x < Config.p) : result .mmul x Config.RmodP = x := by
  refine result_eq_of_cast_eq hx ?_
  rw [cast_mmul, Config.cast_RmodP, mul_assoc, cast_R_mul_cast_Rinv, mul_one]

theorem mmul_zero (x : Nat) : result .mmul x 0 = 0 := by
  rw [result, resultMmul, Nat.mul_zero, Nat.zero_mul, Nat.zero_mod]

theorem msqr_eq_mmul (x b : Nat) : result .msqr x b = result .mmul x x := rfl

theorem tomont_eq_mmul (a b : Nat) : result .tomont a b = result .mmul a Config.R2modP := by
  refine result_eq_of_cast_eq (result_lt_p ..) ?_
  rw [cast_tomont, cast_mmul, Config.cast_R2modP]
  linear_combination -(a : ZMod Config.p) * Config.R * cast_R_mul_cast_Rinv

theorem frommont_eq_mmul_one (x b : Nat) : result .frommont x b = result .mmul x 1 := by
  rw [result, result, resultMmul, Nat.mul_one, resultFrommont]

theorem frommont_eq_mredc (x b : Nat) : result .frommont x b = result .mredc x 0 := by
  rw [result, result, resultMredc, wide_zero, resultFrommont]

/-- MREDC of the whole product is MMUL of its factors. -/
theorem mredc_mul (x y : Nat) : result .mredc (x * y % 2 ^ 384) (x * y / 2 ^ 384) = result .mmul x y := by
  rw [result, result, resultMredc, wide_mod_div, resultMmul]

theorem frommont_tomont {a : Nat} (ha : a < Config.p) (b c : Nat) : result .frommont (result .tomont a b) c = a := by
  refine result_eq_of_cast_eq ha ?_
  rw [cast_frommont, cast_tomont, mul_assoc, cast_R_mul_cast_Rinv, mul_one]

theorem tomont_frommont {x : Nat} (hx : x < Config.p) (b c : Nat) : result .tomont (result .frommont x b) c = x := by
  refine result_eq_of_cast_eq hx ?_
  rw [cast_tomont, cast_frommont, mul_right_comm, mul_assoc, cast_R_mul_cast_Rinv, mul_one]

theorem mmul_tomont_tomont (a b c d e : Nat) :
    result .mmul (result .tomont a c) (result .tomont b d) = result .tomont (a * b % Config.p) e := by
  refine result_eq_of_cast_eq (result_lt_p ..) ?_
  rw [cast_mmul, cast_tomont, cast_tomont, cast_tomont, ZMod.natCast_mod, Nat.cast_mul]
  linear_combination (a : ZMod Config.p) * b * Config.R * cast_R_mul_cast_Rinv

/-- Settles O13: one lemma per law, each an equation of residue classes between canonical values. -/
theorem montgomeryLaws : Obligations.MontgomeryLaws :=
  fun x y z a b hx _ _ ha _ =>
    ⟨mmul_comm x y, mmul_assoc x y z, mmul_RmodP hx, mmul_zero x, msqr_eq_mmul x 0, tomont_eq_mmul a 0,
      frommont_eq_mmul_one x 0, frommont_eq_mredc x 0, mredc_mul x y, frommont_tomont ha 0 0, tomont_frommont hx 0 0,
      mmul_tomont_tomont a b 0 0 0, result_lt_p⟩

end Sys2Proof.Machine
end

section
/-! PROOFS. The five commands (R58 to R62): what a command does by its opcode alone, then the corner cases and the worked
example of each: O5 to O9. -/

namespace Sys2Proof.Machine

/-- A command's words, START and completion, given what its range predicate and its result are on the operands. -/
theorem commandMeaning_ofOpcode (op : Opcode) {ok : Nat → Nat → Prop} (hok : ∀ {A B}, inRange op A B = true ↔ ok A B) :
    CommandMeaning (Instr.ofOpcode op) op.bits ok (result op) := by
  refine ⟨fun ie => ⟨?word, decode_encode _⟩, fun ie s hb => ?rejected, fun ie s hb => ?accepted,
    fun s hc hop => ⟨fun hr => ?inRange, fun hr => ?outOfRange⟩⟩
  case word => rw [encode, Instr.ofOpcode_ie, Instr.ofOpcode_opcode]
  case rejected =>
    rw [exec_eq, Instr.ofOpcode_opcode, Instr.ofOpcode_ie, State.startCommand_of_busy hb]
    rfl
  case accepted =>
    rw [exec_eq, Instr.ofOpcode_opcode, Instr.ofOpcode_ie, State.startCommand_of_legal hb]
    rfl
  case inRange => exact ⟨_, toNat_ofNat_result op _ _, step_complete_in_range hc hop (hok.2 hr)⟩
  case outOfRange => exact step_complete_out_of_range hc hop (Bool.eq_false_iff.2 (mt hok.1 hr))

/-! The corner cases. -/

theorem zero_mmul (x : Nat) : result .mmul 0 x = 0 := (mmul_comm 0 x).trans (mmul_zero x)

theorem RmodP_mmul {x : Nat} (hx : x < Config.p) : result .mmul Config.RmodP x = x :=
  (mmul_comm ..).trans (mmul_RmodP hx)

theorem mmul_p_sub_one_p_sub_one : result .mmul (Config.p - 1) (Config.p - 1) = Config.Rinv :=
  result_eq_of_cast_eq Config.Rinv_lt_p (by simp)

theorem mmul_p_sub_one_one : result .mmul (Config.p - 1) 1 = Config.p - Config.Rinv :=
  result_eq_of_cast_eq Config.p_sub_Rinv_lt_p (by simp [Config.Rinv_lt_p.le])

theorem frommont_zero (b : Nat) : result .frommont 0 b = 0 :=
  (frommont_eq_mmul_one 0 b).trans (zero_mmul 1)

theorem frommont_one (b : Nat) : result .frommont 1 b = Config.Rinv :=
  result_eq_of_cast_eq Config.Rinv_lt_p (by simp)

theorem frommont_RmodP (b : Nat) : result .frommont Config.RmodP b = 1 :=
  (frommont_eq_mmul_one _ b).trans (RmodP_mmul Config.one_lt_p)

theorem frommont_p_sub_one (b : Nat) : result .frommont (Config.p - 1) b = Config.p - Config.Rinv :=
  (frommont_eq_mmul_one _ b).trans mmul_p_sub_one_one

theorem tomont_zero (b : Nat) : result .tomont 0 b = 0 :=
  (tomont_eq_mmul 0 b).trans (zero_mmul _)

theorem tomont_one (b : Nat) : result .tomont 1 b = Config.RmodP :=
  result_eq_of_cast_eq Config.RmodP_lt_p (by simp)

theorem tomont_p_sub_one (b : Nat) : result .tomont (Config.p - 1) b = Config.p - Config.RmodP :=
  result_eq_of_cast_eq Config.p_sub_RmodP_lt_p (by simp [Config.RmodP_lt_p.le])

/-- The largest T in range, p·2^384 − 1, stands for −1. -/
theorem mredc_largest : result .mredc (2 ^ 384 - 1) (Config.p - 1) = Config.p - Config.Rinv := by
  have hwide : wide (2 ^ 384 - 1) (Config.p - 1) = Config.p * Config.R - 1 := by decide +kernel
  have hpos : 1 ≤ Config.p * Config.R := by decide +kernel
  refine result_eq_of_cast_eq Config.p_sub_Rinv_lt_p ?_
  rw [cast_mredc, hwide, Nat.cast_sub hpos, Config.cast_p_sub Config.Rinv_lt_p.le]
  simp

theorem inRange_mmul_p_right (b : Nat) : inRange .mmul b Config.p = false :=
  Bool.eq_false_iff.2 fun h => (inRange_mmul_iff.1 h).2.false

/-- Settles O5: the corner cases follow from the laws and from p − 1 standing for −1; the example is computed. -/
theorem mmulMultipliesInMontgomeryForm : Obligations.MmulMultipliesInMontgomeryForm := by
  refine ⟨commandMeaning_ofOpcode .mmul inRange_mmul_iff, fun b => ⟨zero_mmul b, mmul_zero b⟩,
    fun b hb => ⟨RmodP_mmul hb, mmul_RmodP hb⟩, mmul_p_sub_one_p_sub_one, mmul_p_sub_one_one,
    fun b => ⟨?atP, inRange_mmul_p_right b, ?atMax⟩, fun a b => (msqr_eq_mmul a b).symm, ?worked⟩
  case atP => exact inRange_eq_false_of_le (by decide) le_rfl b
  case atMax => exact inRange_eq_false_of_le (by decide) (by decide +kernel) b
  case worked => decide +kernel

/-- Settles O6: each corner case is that of MMUL with both operands equal, since B plays no part. -/
theorem msqrSquaresInMontgomeryForm : Obligations.MsqrSquaresInMontgomeryForm := by
  refine ⟨commandMeaning_ofOpcode .msqr inRange_msqr_iff, fun b => ⟨?zero, ?unit, ?minusOne, ?atP⟩,
    fun a b => ⟨msqr_eq_mmul a b, inRange_msqr_iff.2⟩, fun b => ?worked⟩
  case zero => exact (msqr_eq_mmul 0 b).trans (mmul_zero 0)
  case unit => exact (msqr_eq_mmul _ b).trans (mmul_RmodP Config.RmodP_lt_p)
  case minusOne => exact (msqr_eq_mmul _ b).trans mmul_p_sub_one_p_sub_one
  case atP => exact inRange_eq_false_of_le (by decide) le_rfl b
  case worked => rw [msqr_eq_mmul]; decide +kernel

/-- Settles O7: with OPB = 0 MREDC is FROMMONT, and on a product it is MMUL, so the example is MMUL's corner case. -/
theorem mredcReducesTheWideValue : Obligations.MredcReducesTheWideValue := by
  refine ⟨commandMeaning_ofOpcode .mredc inRange_mredc_iff, fun A B hA => wide_lt_iff hA, ?zero, ?one, ?unit,
    ?largestInRange, mredc_largest, ?atP, fun A B => inRange_mredc_iff_of_lt, fun x y _ _ => mredc_mul x y, ?worked⟩
  case zero => exact (frommont_eq_mredc 0 0).symm.trans (frommont_zero 0)
  case one => exact (frommont_eq_mredc 1 0).symm.trans (frommont_one 0)
  case unit => exact (frommont_eq_mredc _ 0).symm.trans (frommont_RmodP 0)
  case largestInRange => exact (inRange_mredc_iff_of_lt (by decide +kernel)).2 (Config.p_sub_lt_p Nat.one_pos)
  case atP => exact Bool.eq_false_iff.2 fun h => ((inRange_mredc_iff_of_lt (by decide +kernel)).1 h).false
  case worked => rw [sq, mredc_mul, mmul_p_sub_one_p_sub_one, Config.Rinv]

/-- Settles O8: TOMONT multiplies by R, so 1 goes to R mod p and −1 to −R; the example is computed. -/
theorem tomontEntersMontgomeryForm : Obligations.TomontEntersMontgomeryForm := by
  refine ⟨commandMeaning_ofOpcode .tomont inRange_tomont_iff, fun a b _ => tomont_eq_mmul a b,
    fun b => ⟨tomont_zero b, tomont_one b, tomont_p_sub_one b, ?atP, ?worked⟩⟩
  case atP => exact inRange_eq_false_of_le (by decide) le_rfl b
  case worked => rw [tomont_eq_mmul]; decide +kernel

/-- Settles O9: FROMMONT is MMUL by 1 and MREDC with OPB = 0; MREDC there takes any OPA, because 0 < p. -/
theorem frommontLeavesMontgomeryForm : Obligations.FrommontLeavesMontgomeryForm := by
  refine ⟨commandMeaning_ofOpcode .frommont inRange_frommont_iff,
    fun a b _ => ⟨frommont_eq_mmul_one a b, frommont_eq_mredc a b⟩,
    fun a b => ⟨inRange_frommont_iff, fun ha => (inRange_mredc_iff_of_lt ha).2 Config.one_lt_p.pos⟩,
    fun b => ⟨frommont_zero b, frommont_RmodP b, frommont_one b, frommont_p_sub_one b, ?atP, ?worked⟩⟩
  case atP => exact inRange_eq_false_of_le (by decide) le_rfl b
  case worked => rw [frommont_eq_mmul_one]; decide +kernel

end Sys2Proof.Machine
end

section
/-! PROOFS. The interrupt output (R68): its level, the STATUS bits that show its condition, and O39. -/

namespace Sys2Proof.Machine

/-- A one-bit field, as a word, has that bit at place 0 and no other. -/
theorem getLsbD_bit (b : Bool) (k : Nat) : (bit b).getLsbD k = (b && decide (k = 0)) := by
  cases b with
  | false => simp [bit]
  | true => simp [bit, BitVec.getLsbD_one]

namespace State

/-- The level of `irq`: enabled, and DONE or ERR pending (R68). -/
theorem irq_eq_true_iff (s : State) : s.irq = true ↔ s.ie = true ∧ (s.done = true ∨ s.err = true) := by
  rw [irq, Bool.and_eq_true, Bool.or_eq_true]

/-- IE = 0 masks whatever is pending. -/
theorem irq_eq_false_of_masked {s : State} (hie : s.ie = false) : s.irq = false := by
  rw [irq, hie, Bool.false_and]

/-- With DONE = 0 and ERR = 0 nothing is pending, whatever IE is. -/
theorem irq_eq_false_of_cleared {s : State} (hdone : s.done = false) (herr : s.err = false) : s.irq = false := by
  rw [irq, hdone, herr, Bool.or_false, Bool.and_false]

/-- `irq` drives the line IRQ_LINE and no other (R68). -/
theorem irqOnLine_eq_true_iff (s : State) (line : Nat) :
    s.irqOnLine line = true ↔ line = Config.irqLine ∧ s.irq = true := by
  rw [irqOnLine, Bool.and_eq_true, beq_iff_eq]

/-- STATUS shows DONE at bit 1 (R22). -/
@[simp] theorem statusWord_doneBit (s : State) : s.statusWord.getLsbD 1 = s.done := by
  simp [statusWord, getLsbD_bit, -BitVec.getLsbD_eq_getElem]

/-- STATUS shows ERR at bit 2 (R22). -/
@[simp] theorem statusWord_errBit (s : State) : s.statusWord.getLsbD 2 = s.err := by
  simp [statusWord, getLsbD_bit, -BitVec.getLsbD_eq_getElem]

end State

/-- A step that is an accepted START clears DONE and ERR (R24, R52). -/
theorem flags_clear_of_accepts {s t : State} (ha : s.acceptsNext) (h : step s = .next t) :
    t.done = false ∧ t.err = false := by
  obtain ⟨hb, v, ⟨es, hs⟩, hstart, hlo, hhi⟩ := ha
  obtain ⟨-, -, haccepted⟩ := startRequestAcceptsOrRejects s es v hs hstart
  rw [haccepted hb hlo hhi] at h
  cases h
  exact ⟨rfl, rfl⟩

/-- A step that is reset clears DONE and ERR (R81). -/
theorem flags_clear_of_reset {s t : State} (hr : s.resetNext) (h : step s = .next t) :
    t.done = false ∧ t.err = false := by
  obtain ⟨es, hs⟩ := hr
  rw [step_reset hs] at h
  cases h
  exact ⟨rfl, rfl⟩

/-- Settles O39: each way `irq` goes low either masks it by IE = 0 or leaves DONE = 0 and ERR = 0. -/
theorem irqIsEnableAndDoneOrErr : Obligations.IrqIsEnableAndDoneOrErr := by
  refine ⟨State.irq_eq_true_iff,
    fun s => ⟨s.statusWord, s.busRead_status, s.statusWord_doneBit, s.statusWord_errBit⟩,
    fun s es v hs hstart hie => ⟨_, step_ctrl_of_no_start hs hstart, State.irq_eq_false_of_masked hie, rfl, rfl⟩,
    fun s es v hs hdone herr => ⟨_, step_status hs, State.irq_eq_false_of_cleared ?done ?err⟩,
    fun s t hcause h => ?clearing, State.irqOnLine_eq_true_iff, rfl⟩
  case done => simp [hdone]
  case err => simp [herr]
  case clearing =>
    obtain ⟨hdone, herr⟩ := hcause.elim (flags_clear_of_accepts · h) (flags_clear_of_reset · h)
    exact State.irq_eq_false_of_cleared hdone herr

end Sys2Proof.Machine
end

section
/-! PROOFS. The reset values (R81), and O38. -/

namespace Sys2Proof.Machine

/-- Every word of a register that holds 0 is 0 (R12). -/
@[simp] theorem getWord_zero (i : Nat) : getWord 0 i = 0 := by
  simp [getWord]

/-- The word CTRL reads after reset (R81). -/
@[simp] theorem State.reset_ctrlWord : State.reset.ctrlWord = 0x00000000 := by decide

/-- The word STATUS reads after reset (R81). -/
@[simp] theorem State.reset_statusWord : State.reset.statusWord = 0x00000000 := by decide

/-- Settles O38: the registers hold 0, so each of their words is 0, and the two reads return CTRL's and STATUS's words. -/
theorem resetValuesAsListed : Obligations.ResetValuesAsListed :=
  ⟨rfl, rfl, rfl, rfl, rfl, rfl, fun i _ => ⟨getWord_zero i, getWord_zero i, getWord_zero i⟩, rfl, rfl, rfl, rfl,
    State.reset.busRead_ctrl.trans (congrArg Response.data State.reset_ctrlWord),
    State.reset.busRead_status.trans (congrArg Response.data State.reset_statusWord)⟩

end Sys2Proof.Machine
end

section
/-! PROOFS. R26's invariants at reset and over one step, and the one stop of the machine (log entry 7): O19, O20 and O22. -/

namespace Sys2Proof.Machine

/-- Settles O19: the reset values meet each of the four invariants. -/
theorem invariantHoldsAtReset : Obligations.InvariantHoldsAtReset := State.Inv.reset

/-- Settles O20: each operation that a turn is made of keeps the four invariants, so every kind of turn does. -/
theorem everyStepKeepsTheInvariant : Obligations.EveryStepKeepsTheInvariant := fun _ _ hinv h => hinv.step h

/-- Every turn but a completion answers a next state. -/
theorem exists_step_of_not_completes {s : State} (h : ¬ s.completes) : ∃ t, step s = .next t := by
  have idle : s.engineNext → ∃ t, step s = .next t := fun he =>
    ⟨_, step_idle he (Bool.eq_false_iff.2 fun hb => h ⟨hb, he⟩)⟩
  cases hs : s.events with
  | nil => exact idle (.inl hs)
  | cons e es =>
    cases e with
    | host a => exact step_host_next hs
    | engine => exact idle (.inr ⟨es, hs⟩)
    | reset => exact ⟨_, step_reset hs⟩

/-- A completion whose LOP is reserved is the fault (R26 (d), log entry 7). -/
theorem step_fault_of_completes {s : State} (hc : s.completes) (hop : Opcode.ofBits s.lop = none) :
    step s = .fault (.latchedOpcodeIllegal s.lop) := by
  rw [step_completes hc, State.complete, State.withEvents_lop, hop]

/-- Settles O22: a turn that is no completion goes on, and a completion goes on or faults by its LOP. -/
theorem stepStopsOnlyOnAnIllegalLatch : Obligations.StepStopsOnlyOnAnIllegalLatch := by
  have outcome (s : State) : (∃ t, step s = .next t) ∨
      s.completes ∧ Opcode.ofBits s.lop = none ∧ step s = .fault (.latchedOpcodeIllegal s.lop) := by
    by_cases hc : s.completes
    · cases hop : Opcode.ofBits s.lop with
      | none => exact .inr ⟨hc, rfl, step_fault_of_completes hc hop⟩
      | some op => exact .inl ⟨_, step_complete hc (Opcode.ofBits_eq_some.1 hop)⟩
    · exact .inl (exists_step_of_not_completes hc)
  refine ⟨fun s f => ⟨fun h => ?faults, ?stops⟩, fun s r h => ?refuses⟩
  case faults =>
    rcases outcome s with ⟨t, ht⟩ | ⟨hc, hop, hf⟩
    · rw [ht] at h; cases h
    · rw [hf] at h; cases h
      exact ⟨hc, Opcode.ofBits_eq_none.1 hop, rfl⟩
  case stops =>
    rintro ⟨hc, hop, rfl⟩
    exact step_fault_of_completes hc (Opcode.ofBits_eq_none.2 hop)
  case refuses => rcases outcome s with ⟨t, ht⟩ | ⟨_, _, hf⟩ <;> simp_all

end Sys2Proof.Machine
end

section
/-! PROOFS. Two runs side by side under the same turns: O42 and O46. -/

namespace Sys2Proof.Machine

/-- A relation of two states that every operation a turn is made of keeps; by `KeptByTurns.step` a whole turn keeps it. -/
structure KeptByTurns (Q : State → State → Prop) : Prop where
  events {s t} : Q s t → s.events = t.events
  withEvents {s t} (es : List Event) : Q s t → Q (s.withEvents es) (t.withEvents es)
  read {s t} (off sz : Nat) : Q s t → Q (s.respond (s.busRead off sz)) (t.respond (t.busRead off sz))
  respond {s t} (r : Response) : Q s t → Q (s.respond r) (t.respond r)
  setCtrl {s t} (o : OpBits) (b : Bool) : Q s t → Q (s.setCtrl o b) (t.setCtrl o b)
  startRequest {s t} (o : OpBits) : Q s t → Q (s.startRequest o) (t.startRequest o)
  statusWrite {s t} (v : Word) : Q s t → Q (s.statusWrite v) (t.statusWrite v)
  setOpaWord {s t} (i : Nat) (v : Word) : Q s t → Q (s.setOpaWord i v) (t.setOpaWord i v)
  setOpbWord {s t} (i : Nat) (v : Word) : Q s t → Q (s.setOpbWord i v) (t.setOpbWord i v)
  reset {s t} : Q s t → Q s.applyReset t.applyReset
  engine {s t s'} : Q s t → s.engineTurn = .next s' → ∃ t', t.engineTurn = .next t' ∧ Q s' t'

namespace KeptByTurns

variable {Q : State → State → Prop} {s t s' : State}

/-- Which operation a host write is depends on the write alone, so the two states answer it by the same one. -/
theorem busWrite (hQ : KeptByTurns Q) (h : Q s t) {off sz : Nat} {en : BitVec 4} {v : Word}
    (hs : s.busWrite off sz en v = .next s') : ∃ t', t.busWrite off sz en v = .next t' ∧ Q s' t' := by
  have hw := hQ.respond .completes h
  simp only [State.busWrite, State.ctrlWrite_eq] at hs ⊢
  split_ifs at hs ⊢ <;> cases hs <;> refine ⟨_, rfl, ?_⟩
  · exact hQ.respond _ h
  · exact hQ.startRequest _ (hQ.setCtrl _ _ hw)
  · exact hQ.setCtrl _ _ hw
  · exact hQ.statusWrite v hw
  · exact hQ.setOpaWord _ v hw
  · exact hQ.setOpbWord _ v hw
  · exact hw
  · exact hQ.respond _ h

theorem step (hQ : KeptByTurns Q) (h : Q s t) (hs : Machine.step s = .next s') :
    ∃ t', Machine.step t = .next t' ∧ Q s' t' := by
  cases he : s.events with
  | nil =>
    rw [step_silent he] at hs
    rw [step_silent ((hQ.events h).symm.trans he)]
    exact hQ.engine h hs
  | cons e es =>
    have he' : t.events = e :: es := (hQ.events h).symm.trans he
    have hw := hQ.withEvents es h
    cases e with
    | engine =>
      rw [step_engine he] at hs
      rw [step_engine he']
      exact hQ.engine hw hs
    | reset =>
      rw [step_reset he] at hs
      cases hs
      exact ⟨_, step_reset he', hQ.reset hw⟩
    | host a =>
      cases a with
      | read off sz =>
        rw [step_read he] at hs
        cases hs
        exact ⟨_, step_read he', hQ.read off sz hw⟩
      | write off sz en v =>
        rw [step_write he] at hs
        rw [step_write he']
        exact hQ.busWrite hw hs

theorem runSteps (hQ : KeptByTurns Q) {k : Nat} (h : Q s t) (hs : Machine.runSteps k s = .next s') :
    ∃ t', Machine.runSteps k t = .next t' ∧ Q s' t' := by
  induction k generalizing s t with
  | zero => cases hs; exact ⟨t, rfl, h⟩
  | succ k ih =>
    cases hu : Machine.step s with
    | next u =>
      obtain ⟨v, hv, huv⟩ := hQ.step h hu
      rw [runSteps_succ hu] at hs
      rw [runSteps_succ hv]
      exact ih huv hs
    | fault f => simp [Machine.runSteps, hu] at hs
    | refused r => simp [Machine.runSteps, hu] at hs

end KeptByTurns

/-! R28: the latches of an idle block. -/

namespace State

/-- The same state with other latches (R28). -/
def withLatches (s : State) (x : OpBits) (a b : Reg) : State := { s with lop := x, la := a, lb := b }

theorem sameButLatches_iff {s t : State} : s.sameButLatches t ↔ ∃ x a b, s = t.withLatches x a b := by
  constructor
  · exact fun h => ⟨_, _, _, h⟩
  · rintro ⟨x, a, b, rfl⟩
    rfl

/-- BUSY = 1 implies that LOP names a command: R26 (d) alone. -/
def LopLegal (s : State) : Prop := s.busy = true → ∃ op : Opcode, s.lop = op.bits

theorem Inv.lopLegal {s : State} (h : s.Inv) : s.LopLegal := fun hb => Opcode.mem_lop_list_iff.1 (h.busyLop hb)

theorem lopLegal_of_idle {s : State} (h : s.busy = false) : s.LopLegal := fun hb => by simp [h] at hb

theorem LopLegal.exists_step {s : State} (h : s.LopLegal) : ∃ t, step s = .next t := by
  by_cases hc : s.completes
  · obtain ⟨op, hop⟩ := h hc.1
    exact ⟨_, step_complete hc hop⟩
  · exact exists_step_of_not_completes hc

/-- The simulation behind R28: the two states differ in the latches at most, and not even there once a command is in flight,
which is then one that LOP names. -/
structure SimLatches (s t : State) : Prop where
  same : s.sameButLatches t
  eqOfBusy : s.busy = true → s = t
  legal : s.LopLegal

namespace SimLatches

variable {s t : State}

theorem refl (h : s.LopLegal) : s.SimLatches s := ⟨rfl, fun _ => rfl, h⟩

theorem of_idle (h : s.sameButLatches t) (hb : s.busy = false) : s.SimLatches t :=
  ⟨h, fun hb' => by simp [hb] at hb', lopLegal_of_idle hb⟩

theorem exists_withLatches (h : s.SimLatches t) : ∃ x a b, s = t.withLatches x a b := sameButLatches_iff.1 h.same

theorem busy_eq (h : s.SimLatches t) : t.busy = s.busy := by
  obtain ⟨x, a, b, rfl⟩ := h.exists_withLatches
  rfl

/-- An operation that neither reads nor writes the latches, nor BUSY, keeps the simulation. -/
theorem map (h : s.SimLatches t) {f : State → State} (hf : ∀ u x a b, f (withLatches u x a b) = (f u).withLatches x a b)
    (hbusy : ∀ u, (f u).busy = u.busy) (hlop : ∀ u, (f u).lop = u.lop) : (f s).SimLatches (f t) where
  same := by
    obtain ⟨x, a, b, rfl⟩ := h.exists_withLatches
    exact sameButLatches_iff.2 ⟨x, a, b, hf ..⟩
  eqOfBusy hb := congrArg f (h.eqOfBusy (by rwa [hbusy] at hb))
  legal hb := by
    rw [hlop]
    exact h.legal (by rwa [hbusy] at hb)

/-- An accepted START overwrites the latches (R52); a rejected one leaves them (R53). -/
theorem startRequest (h : s.SimLatches t) (o : OpBits) : (s.startRequest o).SimLatches (t.startRequest o) := by
  have reject (code : ErrCode) : (s.reject code).SimLatches (t.reject code) :=
    h.map (f := (·.reject code)) (fun _ _ _ _ => rfl) (fun _ => rfl) fun _ => rfl
  unfold State.startRequest
  rw [h.busy_eq]
  split
  · exact reject _
  · split
    · exact reject _
    next op hop =>
      obtain ⟨x, a, b, rfl⟩ := h.exists_withLatches
      exact refl fun _ => ⟨op, Opcode.ofBits_eq_some.1 hop⟩

/-- A completion is of the one command in flight that both states hold, and leaves the block idle (R55). -/
theorem engineTurn (h : s.SimLatches t) {s' : State} (hs : s.engineTurn = .next s') :
    ∃ t', t.engineTurn = .next t' ∧ s'.SimLatches t' := by
  cases hb : s.busy with
  | false =>
    simp only [State.engineTurn, h.busy_eq, hb] at hs ⊢
    cases hs
    exact ⟨t, rfl, h⟩
  | true =>
    obtain rfl := h.eqOfBusy hb
    obtain ⟨op, hop⟩ := h.legal hb
    refine ⟨s', hs, refl (lopLegal_of_idle ?_)⟩
    rw [State.engineTurn, if_pos hb, complete_of_legal hop] at hs
    cases hs
    exact finish_busy ..

theorem keptByTurns : KeptByTurns SimLatches where
  events h := by
    obtain ⟨x, a, b, rfl⟩ := h.exists_withLatches
    rfl
  withEvents es h := h.map (f := (·.withEvents es)) (fun _ _ _ _ => rfl) (fun _ => rfl) fun _ => rfl
  read off sz h :=
    h.map (f := fun u => u.respond (u.busRead off sz)) (fun _ _ _ _ => rfl) (fun _ => rfl) fun _ => rfl
  respond r h := h.map (f := (·.respond r)) (fun _ _ _ _ => rfl) (fun _ => rfl) fun _ => rfl
  setCtrl o b h := h.map (f := (·.setCtrl o b)) (fun _ _ _ _ => rfl) (fun _ => rfl) fun _ => rfl
  startRequest o h := h.startRequest o
  statusWrite v h := h.map (f := (·.statusWrite v)) (fun u x a b => by simp only [statusWrite_eq, withLatches])
    (fun _ => statusWrite_busy ..) fun _ => statusWrite_lop ..
  setOpaWord i v h := h.map (f := (·.setOpaWord i v)) (fun _ _ _ _ => rfl) (fun _ => rfl) fun _ => rfl
  setOpbWord i v h := h.map (f := (·.setOpbWord i v)) (fun _ _ _ _ => rfl) (fun _ => rfl) fun _ => rfl
  reset h := by
    obtain ⟨x, a, b, rfl⟩ := h.exists_withLatches
    exact refl (lopLegal_of_idle rfl)
  engine h hs := h.engineTurn hs

/-- Related states never stop, and go on to related states. -/
theorem runSteps (h : s.SimLatches t) (k : Nat) :
    ∃ s' t', Machine.runSteps k s = .next s' ∧ Machine.runSteps k t = .next t' ∧ s'.SimLatches t' := by
  induction k generalizing s t with
  | zero => exact ⟨s, t, rfl, rfl, h⟩
  | succ k ih =>
    obtain ⟨u, hu⟩ := h.legal.exists_step
    obtain ⟨v, hv, huv⟩ := keptByTurns.step h hu
    rw [runSteps_succ hu, runSteps_succ hv]
    exact ih huv

end SimLatches
end State

/-- Settles O42: idle states that differ in the latches alone are related by the simulation, and neither the responses nor
`irq` read a latch. -/
theorem idleLatchesAreNeverObserved : Obligations.IdleLatchesAreNeverObserved := by
  intro k s t h hb
  obtain ⟨s', t', hs', ht', hsim⟩ := (State.SimLatches.of_idle h hb).runSteps k
  obtain ⟨x, a, b, rfl⟩ := hsim.exists_withLatches
  exact ⟨_, t', hs', ht', hsim.same, rfl, rfl⟩

/-! R90's untimed shadow: two states with the same control. -/

namespace State.sameControl

variable {s t : State}

/-- Whether a START is accepted depends on BUSY and the opcode; what it latches as LOP is the opcode. -/
theorem startRequest (h : s.sameControl t) (o : OpBits) : (s.startRequest o).sameControl (t.startRequest o) := by
  obtain ⟨hop, hie, hbusy, hdone, hlop, hevents⟩ := h
  unfold State.startRequest
  rw [hbusy]
  split
  · exact ⟨hop, hie, hbusy, hdone, hlop, hevents⟩
  · split
    · exact ⟨hop, hie, hbusy, hdone, hlop, hevents⟩
    · exact ⟨hop, hie, rfl, rfl, rfl, hevents⟩

/-- Whether the engine completes depends on BUSY and LOP; the operands move RES, ERR and ERRCODE alone. -/
theorem engineTurn (h : s.sameControl t) {s' : State} (hs : s.engineTurn = .next s') :
    ∃ t', t.engineTurn = .next t' ∧ s'.sameControl t' := by
  obtain ⟨hop, hie, hbusy, hdone, hlop, hevents⟩ := h
  unfold State.engineTurn at hs ⊢
  rw [hbusy] at hs
  split at hs
  next hb =>
    rw [if_pos hb]
    rcases s.complete_cases with ⟨op, hop', e⟩ | ⟨_, e⟩ <;> rw [e] at hs <;> cases hs
    refine ⟨_, complete_of_legal (hlop.symm.trans hop'), ?_⟩
    simp [State.sameControl, *]
  next hb =>
    cases hs
    exact ⟨t, if_neg hb, hop, hie, hbusy, hdone, hlop, hevents⟩

theorem keptByTurns : KeptByTurns State.sameControl where
  events := fun ⟨_, _, _, _, _, hevents⟩ => hevents
  withEvents _ := fun ⟨hop, hie, hbusy, hdone, hlop, _⟩ => ⟨hop, hie, hbusy, hdone, hlop, rfl⟩
  read _ _ h := h
  respond _ h := h
  setCtrl _ _ := fun ⟨_, _, hbusy, hdone, hlop, hevents⟩ => ⟨rfl, rfl, hbusy, hdone, hlop, hevents⟩
  startRequest o h := h.startRequest o
  statusWrite v := fun ⟨hop, hie, hbusy, hdone, hlop, hevents⟩ => by simp [State.sameControl, *]
  setOpaWord _ _ h := h
  setOpbWord _ _ h := h
  reset := fun ⟨_, _, _, _, _, hevents⟩ => ⟨rfl, rfl, rfl, rfl, rfl, hevents⟩
  engine h hs := h.engineTurn hs

end State.sameControl

/-- Settles O46: every operation of a turn keeps `sameControl`, so a run of any length does. -/
theorem operandsDoNotSteerControl : Obligations.OperandsDoNotSteerControl :=
  fun _ _ _ _ h hs => State.sameControl.keptByTurns.runSteps h hs

end Sys2Proof.Machine
end

section
/-! PROOFS. Which agent moves what in one step (R3, R15, R24), and over a run: O24, O25, O26, O40 and O44. -/

namespace Sys2Proof.Machine

/-- Whether a CTRL write with START = 1 is accepted, by BUSY and its OP (R52). -/
theorem acceptsNext_iff {s : State} {v : Word} {es : List Event} (he : s.events = .host (.write 0x000 4 0xF v) :: es)
    (hv : ctrlStart v = true) : s.acceptsNext ↔ s.busy = false ∧ ∃ op : Opcode, ctrlOp v = op.bits := by
  refine and_congr_right fun _ => ⟨?_, fun h => ?_⟩
  · rintro ⟨v', ⟨es', he'⟩, -, hlo, hhi⟩
    rw [he] at he'
    cases he'
    exact Opcode.exists_bits_iff.2 ⟨hlo, hhi⟩
  · obtain ⟨hlo, hhi⟩ := Opcode.exists_bits_iff.1 h
    exact ⟨v, ⟨es, he⟩, hv, hlo, hhi⟩

/-- The same block with other turns to come and other responses so far: the outside world's two fields. -/
def State.withWorld (s : State) (es : List Event) (rs : List Response) : State := { s with events := es, responses := rs }

@[simp] theorem State.withWorld_err (s : State) (es : List Event) (rs : List Response) : (s.withWorld es rs).err = s.err := rfl

@[simp] theorem State.withWorld_errcode (s : State) (es : List Event) (rs : List Response) :
    (s.withWorld es rs).errcode = s.errcode := rfl

/-- What one step does to the block, one constructor for each way it can move it, with the agent that does. -/
inductive Moved (s : State) : State → Prop where
  | nothing (es : List Event) (rs : List Response) : Moved s (s.withWorld es rs)
  | complete (es : List Event) (rs : List Response) (op : Opcode) (hc : s.completes) (hop : s.lop = op.bits) :
      Moved s ((s.withWorld es rs).finish (inRange op (val s.la) (val s.lb)) (result op (val s.la) (val s.lb)))
  | reset (es : List Event) (rs : List Response) (hr : s.resetNext) : Moved s (s.withWorld es rs).applyReset
  | store (es : List Event) (rs : List Response) (v : Word) (hw : s.writesNext 0x000 v) :
      Moved s ((s.withWorld es rs).setCtrl (ctrlOp v) (ctrlIe v))
  | accept (es : List Event) (rs : List Response) (v : Word) (hw : s.writesNext 0x000 v) (ha : s.acceptsNext) :
      Moved s (((s.withWorld es rs).setCtrl (ctrlOp v) (ctrlIe v)).accept (ctrlOp v))
  | reject (es : List Event) (rs : List Response) (v : Word) (hw : s.writesNext 0x000 v) (hs : s.startsNext)
      (ha : ¬ s.acceptsNext) (code : ErrCode) : Moved s (((s.withWorld es rs).setCtrl (ctrlOp v) (ctrlIe v)).reject code)
  | status (es : List Event) (rs : List Response) (v : Word) (hw : s.writesNext 0x004 v) :
      Moved s ((s.withWorld es rs).statusWrite v)
  | opa (es : List Event) (rs : List Response) (i : Nat) (v : Word) (hi : i < 12) (hw : s.writesNext (0x100 + 4 * i) v) :
      Moved s ((s.withWorld es rs).setOpaWord i v)
  | opb (es : List Event) (rs : List Response) (i : Nat) (v : Word) (hi : i < 12) (hw : s.writesNext (0x140 + 4 * i) v) :
      Moved s ((s.withWorld es rs).setOpbWord i v)

/-- A START moves the block by acceptance or by rejection (R52, R53). -/
theorem moved_start {s : State} {v : Word} {es : List Event} (he : s.events = .host (.write 0x000 4 0xF v) :: es)
    (hv : ctrlStart v = true) :
    Moved s (((s.withEvents es).respond .completes).startCommand (ctrlOp v) (ctrlIe v)) := by
  have hw : s.writesNext 0x000 v := ⟨es, he⟩
  have rejected (ha : ¬ s.acceptsNext) (code : ErrCode) :=
    Moved.reject es (.completes :: s.responses) v hw ⟨v, hw, hv⟩ ha code
  rcases (((s.withEvents es).respond .completes).setCtrl (ctrlOp v) (ctrlIe v)).startRequest_cases (ctrlOp v) with
    ⟨hb, e⟩ | ⟨-, hop, e⟩ | ⟨hb, hop, e⟩ <;> rw [State.startCommand, e]
  · exact rejected (fun ha => by simp_all [State.acceptsNext]) _
  · refine rejected (fun ha => ?_) _
    obtain ⟨-, op, hop'⟩ := (acceptsNext_iff he hv).1 ha
    simp [hop'] at hop
  · exact .accept es (.completes :: s.responses) v hw ((acceptsNext_iff he hv).2 ⟨hb, hop⟩)

theorem moved_of_step {s t : State} (h : step s = .next t) : Moved s t := by
  rcases step_cases h with
    ⟨_, _, rfl⟩ | ⟨hc, op, hop, rfl⟩ | ⟨es, he, rfl⟩ | ⟨_, es, _, _, _, rfl⟩ | ⟨v, es, he, _, rfl⟩ | ⟨v, es, he, hv, rfl⟩ |
    ⟨v, es, he, rfl⟩ | ⟨i, v, es, hi, he, rfl⟩ | ⟨i, v, es, hi, he, rfl⟩
  · exact .nothing _ _
  · exact .complete _ _ op hc hop
  · exact .reset _ _ ⟨es, he⟩
  · exact .nothing _ _
  · exact .store _ _ v ⟨es, he⟩
  · exact moved_start he hv
  · exact .status _ _ v ⟨es, he⟩
  · exact .opa _ _ i v hi ⟨es, he⟩
  · exact .opb _ _ i v hi ⟨es, he⟩

section OneStep

variable {s t : State}

/-! Registers. -/

theorem res_eq_of_step (h : step s = .next t) (hc : ¬ s.completes) (hr : ¬ s.resetNext) : t.res = s.res := by
  cases moved_of_step h with
  | complete _ _ _ hc' => exact absurd hc' hc
  | reset _ _ hr' => exact absurd hr' hr
  | status => exact State.statusWrite_res ..
  | _ => rfl

theorem opa_of_step (h : step s = .next t) (hr : ¬ s.resetNext) :
    t.opa = s.opa ∨ ∃ i v, i < 12 ∧ s.writesNext (0x100 + 4 * i) v ∧ t.opa = setWord s.opa i v := by
  cases moved_of_step h with
  | opa _ _ i v hi hw => exact .inr ⟨i, v, hi, hw, rfl⟩
  | reset _ _ hr' => exact absurd hr' hr
  | complete => exact .inl (State.finish_opa ..)
  | status => exact .inl (State.statusWrite_opa ..)
  | _ => exact .inl rfl

theorem opb_of_step (h : step s = .next t) (hr : ¬ s.resetNext) :
    t.opb = s.opb ∨ ∃ i v, i < 12 ∧ s.writesNext (0x140 + 4 * i) v ∧ t.opb = setWord s.opb i v := by
  cases moved_of_step h with
  | opb _ _ i v hi hw => exact .inr ⟨i, v, hi, hw, rfl⟩
  | reset _ _ hr' => exact absurd hr' hr
  | complete => exact .inl (State.finish_opb ..)
  | status => exact .inl (State.statusWrite_opb ..)
  | _ => exact .inl rfl

theorem latches_of_step (h : step s = .next t) (hr : ¬ s.resetNext) :
    (t.lop = s.lop ∧ t.la = s.la ∧ t.lb = s.lb) ∨ (s.acceptsNext ∧ t.la = s.opa ∧ t.lb = s.opb) := by
  cases moved_of_step h with
  | accept _ _ _ _ ha => exact .inr ⟨ha, rfl, rfl⟩
  | reset _ _ hr' => exact absurd hr' hr
  | complete => exact .inl ⟨State.finish_lop .., State.finish_la .., State.finish_lb ..⟩
  | status => exact .inl ⟨State.statusWrite_lop .., State.statusWrite_la .., State.statusWrite_lb ..⟩
  | _ => exact .inl ⟨rfl, rfl, rfl⟩

theorem ctrl_of_step (h : step s = .next t) (hr : ¬ s.resetNext) :
    (t.op = s.op ∧ t.ie = s.ie) ∨ ∃ v, s.writesNext 0x000 v ∧ t.op = ctrlOp v ∧ t.ie = ctrlIe v := by
  cases moved_of_step h with
  | store _ _ v hw => exact .inr ⟨v, hw, rfl, rfl⟩
  | accept _ _ v hw => exact .inr ⟨v, hw, rfl, rfl⟩
  | reject _ _ v hw => exact .inr ⟨v, hw, rfl, rfl⟩
  | reset _ _ hr' => exact absurd hr' hr
  | complete => exact .inl ⟨State.finish_op .., State.finish_ie ..⟩
  | status => exact .inl ⟨State.statusWrite_op .., State.statusWrite_ie ..⟩
  | _ => exact .inl ⟨rfl, rfl⟩

/-! Flags. -/

theorem busy_of_step (h : step s = .next t) :
    t.busy = s.busy ∨ (s.acceptsNext ∧ t.busy = true) ∨ ((s.completes ∨ s.resetNext) ∧ t.busy = false) := by
  cases moved_of_step h with
  | accept _ _ _ _ ha => exact .inr (.inl ⟨ha, rfl⟩)
  | complete _ _ _ hc => exact .inr (.inr ⟨.inl hc, State.finish_busy ..⟩)
  | reset _ _ hr => exact .inr (.inr ⟨.inr hr, rfl⟩)
  | status => exact .inl (State.statusWrite_busy ..)
  | _ => exact .inl rfl

theorem done_of_step (h : step s = .next t) :
    t.done = s.done ∨ (s.completes ∧ t.done = true) ∨ ((s.acceptsNext ∨ s.resetNext) ∧ t.done = false) ∨
      ∃ v, s.writesNext 0x004 v ∧ t.done = (s.done && !v.getLsbD 1) := by
  cases moved_of_step h with
  | complete _ _ _ hc => exact .inr (.inl ⟨hc, State.finish_done ..⟩)
  | accept _ _ _ _ ha => exact .inr (.inr (.inl ⟨.inl ha, rfl⟩))
  | reset _ _ hr => exact .inr (.inr (.inl ⟨.inr hr, rfl⟩))
  | status _ _ v hw => exact .inr (.inr (.inr ⟨v, hw, State.statusWrite_done ..⟩))
  | _ => exact .inl rfl

/-- ERR with its ERRCODE, which moves only with it (R24). -/
theorem err_of_step (h : step s = .next t) :
    (t.err = s.err ∧ t.errcode = s.errcode) ∨
    ((s.acceptsNext ∨ s.resetNext ∨ ∃ v, s.writesNext 0x004 v ∧ v.getLsbD 2 = true) ∧ t.err = false ∧ t.errcode = 0) ∨
    (((s.startsNext ∧ ¬ s.acceptsNext) ∨
        (s.completes ∧ ∃ op : Opcode, s.lop = op.bits ∧ inRange op s.la.toNat s.lb.toNat = false)) ∧
      t.err = true ∧ (s.err = true → t.errcode = s.errcode)) := by
  cases moved_of_step h with
  | accept _ _ _ _ ha => exact .inr (.inl ⟨.inl ha, rfl, rfl⟩)
  | reset _ _ hr => exact .inr (.inl ⟨.inr (.inl hr), rfl, rfl⟩)
  | reject _ _ _ _ hs ha _ => exact .inr (.inr ⟨.inl ⟨hs, ha⟩, rfl, fun he => by simp [he]⟩)
  | complete _ _ op hc hop =>
    cases hr : inRange op (val s.la) (val s.lb) with
    | true => exact .inl ⟨rfl, rfl⟩
    | false => exact .inr (.inr ⟨.inr ⟨hc, op, hop, hr⟩, rfl, fun he => by simp [he]⟩)
  | status _ _ v hw =>
    cases hv : v.getLsbD 2 with
    | true =>
      refine .inr (.inl ⟨.inr (.inr ⟨v, hw, hv⟩), ?_, ?_⟩)
      · rw [State.statusWrite_err, hv, Bool.not_true, Bool.and_false]
      · rw [State.statusWrite_errcode, if_pos hv]
    | false =>
      refine .inl ⟨?_, ?_⟩
      · rw [State.statusWrite_err, hv, Bool.not_false, Bool.and_true, State.withWorld_err]
      · rw [State.statusWrite_errcode, hv, if_neg Bool.false_ne_true, State.withWorld_errcode]
  | _ => exact .inl ⟨rfl, rfl⟩

/-! `irq`. -/

theorem irq_rises_of_step (h : step s = .next t) (hs : s.irq = false) (ht : t.irq = true) :
    (s.completes ∧ s.ie = true) ∨ ∃ v, s.writesNext 0x000 v ∧ ctrlIe v = true := by
  obtain ⟨hie, hpending⟩ := t.irq_eq_true_iff.1 ht
  cases moved_of_step h with
  | complete _ _ _ hc => exact .inl ⟨hc, by rwa [State.finish_ie] at hie⟩
  | reset => cases hie
  | store _ _ v hw => exact .inr ⟨v, hw, hie⟩
  | accept _ _ v hw => exact .inr ⟨v, hw, hie⟩
  | reject _ _ v hw => exact .inr ⟨v, hw, hie⟩
  | status =>
    have hs' : s.irq = true := s.irq_eq_true_iff.2 ⟨by rwa [State.statusWrite_ie] at hie, hpending.imp
      (fun hd => by rw [State.statusWrite_done, Bool.and_eq_true] at hd; exact hd.1)
      (fun he => by rw [State.statusWrite_err, Bool.and_eq_true] at he; exact he.1)⟩
    exact absurd (hs.symm.trans hs') Bool.false_ne_true
  | _ => exact absurd (hs.symm.trans ht) Bool.false_ne_true

theorem irq_falls_of_step (h : step s = .next t) (hs : s.irq = true) (ht : t.irq = false) :
    s.acceptsNext ∨ s.resetNext ∨ (∃ v, s.writesNext 0x000 v ∧ ctrlIe v = false) ∨
      ∃ v, s.writesNext 0x004 v ∧ (v.getLsbD 1 = true ∨ v.getLsbD 2 = true) := by
  obtain ⟨hie, hpending⟩ := s.irq_eq_true_iff.1 hs
  have low : ¬ (t.ie = true ∧ (t.done = true ∨ t.err = true)) := by simp [← t.irq_eq_true_iff, ht]
  cases moved_of_step h with
  | accept _ _ _ _ ha => exact .inl ha
  | reset _ _ hr => exact .inr (.inl hr)
  | store _ _ v hw => exact .inr (.inr (.inl ⟨v, hw, Bool.eq_false_iff.2 fun hv => low ⟨hv, hpending⟩⟩))
  | reject _ _ v hw => exact .inr (.inr (.inl ⟨v, hw, Bool.eq_false_iff.2 fun hv => low ⟨hv, .inr rfl⟩⟩))
  | status _ _ v hw =>
    refine .inr (.inr (.inr ⟨v, hw, ?_⟩))
    by_contra hv
    obtain ⟨hv1, hv2⟩ := not_or.1 hv
    rw [State.statusWrite_ie, State.statusWrite_done, State.statusWrite_err, Bool.eq_false_iff.2 hv1,
      Bool.eq_false_iff.2 hv2, Bool.not_false, Bool.and_true, Bool.and_true] at low
    exact low ⟨hie, hpending⟩
  | complete => exact absurd ⟨(State.finish_ie ..).trans hie, .inl (State.finish_done ..)⟩ low
  | _ => exact absurd ⟨hie, hpending⟩ low

end OneStep

/-- Settles O25: one lemma per register or group of registers. -/
theorem registersAreWrittenOnlyByTheirAgents : Obligations.RegistersAreWrittenOnlyByTheirAgents := by
  intro s t h hr
  refine ⟨fun hne => ?res, fun hne => (opa_of_step h hr).resolve_left hne, fun hne => (opb_of_step h hr).resolve_left hne,
    fun hne => (latches_of_step h hr).resolve_left ?latches, fun hne => (ctrl_of_step h hr).resolve_left ?ctrl⟩
  case res => by_contra hc; exact hne (res_eq_of_step h hc hr)
  case latches => rintro ⟨hlop, hla, hlb⟩; simp [hlop, hla, hlb] at hne
  case ctrl => rintro ⟨hop, hie⟩; simp [hop, hie] at hne

/-- Settles O40: the two lemmas on what raises and what lowers `irq`. -/
theorem irqMovesOnlyForItsCauses : Obligations.IrqMovesOnlyForItsCauses :=
  fun _ _ h => ⟨irq_rises_of_step h, irq_falls_of_step h⟩

/-- An accepted START leaves BUSY = 1 and every other flag 0 (R52). -/
theorem flags_of_accepts {s t : State} (ha : s.acceptsNext) (h : step s = .next t) :
    t.busy = true ∧ t.done = false ∧ t.err = false ∧ t.errcode = 0 := by
  obtain ⟨hb, v, ⟨es, he⟩, hstart, hlo, hhi⟩ := ha
  obtain ⟨-, -, haccepted⟩ := startRequestAcceptsOrRejects s es v he hstart
  rw [haccepted hb hlo hhi] at h
  cases h
  exact ⟨rfl, rfl, rfl, rfl⟩

/-- A rejected START leaves ERR = 1 (R53). -/
theorem err_of_rejects {s t : State} (hs : s.startsNext) (ha : ¬ s.acceptsNext) (h : step s = .next t) : t.err = true := by
  obtain ⟨v, ⟨es, he⟩, hstart⟩ := hs
  obtain ⟨hbusy, hreserved, -⟩ := startRequestAcceptsOrRejects s es v he hstart
  cases hb : s.busy with
  | true => rw [hbusy hb] at h; cases h; rfl
  | false =>
    have hop : (ctrlOp v).toNat = 0 ∨ 6 ≤ (ctrlOp v).toNat := (Opcode.ofBits_cases _).resolve_left fun hop =>
      ha ((acceptsNext_iff he hstart).2 ⟨hb, hop⟩)
    rw [hreserved hb hop] at h
    cases h
    rfl

/-- A completion leaves BUSY = 0 and DONE = 1 (R55). -/
theorem flags_of_completes {s t : State} (hc : s.completes) (h : step s = .next t) : t.busy = false ∧ t.done = true := by
  obtain ⟨op, -, rfl⟩ := eq_finish_of_completes hc h
  exact ⟨State.finish_busy .., State.finish_done ..⟩

/-- Settles O24: what a START and a completion leave, and for each flag the one lemma on what moves it. -/
theorem flagsChangeOnlyAsTheTableSays : Obligations.FlagsChangeOnlyAsTheTableSays := by
  intro s t h
  refine ⟨fun ha => flags_of_accepts ha h, fun hs ht => ?busyRises, fun hc => flags_of_completes hc h, fun hs ht => ?busyFalls,
    fun hs ht => ?doneRises, fun hs ht => ?doneFalls, fun hs ha => err_of_rejects hs ha h, fun hs ht => ?errRises,
    fun hs ht => ?errFalls, fun hne => ?code⟩
  case busyRises => rcases busy_of_step h with e | ⟨ha, -⟩ | ⟨-, e⟩ <;> simp_all
  case busyFalls => rcases busy_of_step h with e | ⟨-, e⟩ | ⟨hm, -⟩ <;> simp_all
  case doneRises => rcases done_of_step h with e | ⟨hc, -⟩ | ⟨-, e⟩ | ⟨v, -, e⟩ <;> simp_all
  case doneFalls =>
    rcases done_of_step h with e | ⟨-, e⟩ | ⟨hm, -⟩ | ⟨v, hw, e⟩
    · simp_all
    · simp_all
    · exact hm.imp_right .inl
    · exact .inr (.inr ⟨v, hw, by simpa [hs, ht] using e⟩)
  case errRises =>
    rcases err_of_step h with ⟨e, -⟩ | ⟨-, e, -⟩ | ⟨hm, -⟩
    · simp_all
    · simp_all
    · exact hm
  case errFalls =>
    rcases err_of_step h with ⟨e, -⟩ | ⟨hm, -⟩ | ⟨-, e, -⟩
    · simp_all
    · exact hm
    · simp_all
  case code =>
    rcases err_of_step h with ⟨-, e⟩ | ⟨-, he, hcode⟩ | ⟨-, he, hkeeps⟩
    · exact absurd e hne
    · exact .inr ⟨he, hcode⟩
    · exact .inl ⟨Bool.eq_false_iff.2 fun hs => hne (hkeeps hs), he⟩

/-! Over a run. -/

/-- A run of k + 1 steps is a run of k steps and one more. -/
theorem runSteps_succ_iff {k : Nat} {s t : State} :
    runSteps (k + 1) s = .next t ↔ ∃ u, runSteps k s = .next u ∧ step u = .next t := by
  induction k generalizing s with
  | zero => simp [runSteps_one]
  | succ k ih =>
    cases hs : step s with
    | next v => rw [runSteps_succ hs, ih, runSteps_succ hs]
    | fault f => simp [runSteps, hs]
    | refused r => simp [runSteps, hs]

/-- What each step of a run leaves as it was, the run does. -/
theorem eq_of_runSteps {α : Type} {f : State → α} {k : Nat} {s t : State} (h : runSteps k s = .next t)
    (hf : ∀ j u v, j < k → runSteps j s = .next u → step u = .next v → f v = f u) : f t = f s := by
  induction k generalizing t with
  | zero => cases h; rfl
  | succ k ih =>
    obtain ⟨u, hu, ht⟩ := runSteps_succ_iff.1 h
    exact (hf k u t k.lt_succ_self hu ht).trans (ih hu fun j v w hj => hf j v w (hj.trans k.lt_succ_self))

/-- Where ERR is 1 before and after a step, its ERRCODE stays (R69 (b)). -/
theorem errcode_eq_of_step {s t : State} (h : step s = .next t) (hs : s.err = true) (ht : t.err = true) :
    t.errcode = s.errcode := by
  rcases err_of_step h with ⟨-, e⟩ | ⟨-, he, -⟩ | ⟨-, -, hkeeps⟩
  · exact e
  · rw [ht] at he; cases he
  · exact hkeeps hs

/-- Settles O26: ERR is 1 on both sides of each step of the run. -/
theorem firstErrorIsKept : Obligations.FirstErrorIsKept := by
  intro k s t _ h herr
  refine eq_of_runSteps h fun j u v hj hu hv => errcode_eq_of_step hv (herr j u hj.le hu) (herr (j + 1) v hj ?_)
  exact runSteps_succ_iff.2 ⟨u, hu, hv⟩

/-- A START leaves the outside world's two fields alone. -/
theorem startCommand_world (s : State) (x : OpBits) (b : Bool) :
    (s.startCommand x b).events = s.events ∧ (s.startCommand x b).responses = s.responses := by
  rw [State.startCommand]
  rcases (s.setCtrl x b).startRequest_cases x with ⟨-, e⟩ | ⟨-, -, e⟩ | ⟨-, -, e⟩ <;> rw [e] <;> exact ⟨rfl, rfl⟩

/-- A step takes the first of the listed turns (R39). -/
theorem events_of_step {s t : State} (h : step s = .next t) : t.events = s.events.tail := by
  rcases step_cases h with
    ⟨_, _, rfl⟩ | ⟨_, _, _, rfl⟩ | ⟨es, he, rfl⟩ | ⟨_, es, _, he, _, rfl⟩ | ⟨_, es, he, _, rfl⟩ | ⟨_, es, he, _, rfl⟩ |
    ⟨_, es, he, rfl⟩ | ⟨_, _, es, _, he, rfl⟩ | ⟨_, _, es, _, he, rfl⟩ <;> simp [*, startCommand_world]

/-- Any host access to a block with a command in flight answers, and leaves the command and RES alone (R85). -/
theorem exists_step_host_of_busy {s : State} {a : Access} {es : List Event} (hb : s.busy = true)
    (he : s.events = .host a :: es) : ∃ t, step s = .next t ∧ t.res = s.res ∧ t.busy = true ∧
      t.lop = s.lop ∧ t.la = s.la ∧ t.lb = s.lb ∧ t.events = es := by
  obtain ⟨t, h⟩ := step_host_next he
  have hc : ¬ s.completes := by simp [State.completes, State.engineNext, he]
  have hr : ¬ s.resetNext := by simp [State.resetNext, he]
  have ha : ¬ s.acceptsNext := by simp [State.acceptsNext, hb]
  obtain ⟨hlop, hla, hlb⟩ := (latches_of_step h hr).resolve_right fun ⟨ha', _⟩ => ha ha'
  have hbusy : t.busy = s.busy := by rcases busy_of_step h with e | ⟨ha', _⟩ | ⟨hm, _⟩ <;> simp_all
  exact ⟨t, h, res_eq_of_step h hc hr, hbusy.trans hb, hlop, hla, hlb, by rw [events_of_step h, he, List.tail_cons]⟩

/-- Settles O44: RES moves at a completion or reset alone, and no host access moves the command in flight. -/
theorem resultIsStableWhileBusy : Obligations.ResultIsStableWhileBusy := by
  refine ⟨fun k s t h hquiet => eq_of_runSteps h fun j u v hj hu hv => ?_, fun as => ?_⟩
  · obtain ⟨hc, hr⟩ := hquiet j u hj hu
    exact res_eq_of_step hv hc hr
  · induction as with
    | nil => exact fun s es hb he => ⟨s, rfl, rfl, hb, rfl, rfl, rfl, he⟩
    | cons a as ih =>
      intro s es hb he
      obtain ⟨u, hu, hres, hbusy, hlop, hla, hlb, hevents⟩ := exists_step_host_of_busy hb he
      obtain ⟨t, ht, hres', hbusy', hlop', hla', hlb', hevents'⟩ := ih u es hbusy hevents
      exact ⟨t, (runSteps_succ hu).trans ht, hres'.trans hres, hbusy', hlop'.trans hlop, hla'.trans hla, hlb'.trans hlb,
        hevents'⟩

end Sys2Proof.Machine
end

section
/-! PROOFS. A command in flight completes once the listed turns are over (R89): O23. -/

namespace Sys2Proof.Machine

/-- Where a run answers, it has taken as many of the listed turns as it has steps. -/
theorem events_of_runSteps {k : Nat} {s t : State} (h : runSteps k s = .next t) : t.events = s.events.drop k := by
  induction k generalizing t with
  | zero => cases h; rfl
  | succ k ih =>
    obtain ⟨u, hu, ht⟩ := runSteps_succ_iff.1 h
    rw [events_of_step ht, ih hu, List.tail_drop]

/-- The engine's turn leaves the block idle, whether or not it found a command in flight. -/
theorem busy_eq_false_of_engineNext {s t : State} (he : s.engineNext) (h : step s = .next t) : t.busy = false := by
  cases hb : s.busy with
  | false => rw [step_idle he hb] at h; cases h; exact hb
  | true => exact (flags_of_completes ⟨hb, he⟩ h).1

/-- What the completion of a command leaves in each field O23 speaks of (R55). -/
theorem exists_step_complete {s : State} {op : Opcode} (hc : s.completes) (hop : s.lop = op.bits) :
    ∃ t, step s = .next t ∧ t.busy = false ∧ t.done = true ∧
      t.res = (bif inRange op s.la.toNat s.lb.toNat then BitVec.ofNat 384 (result op s.la.toNat s.lb.toNat) else 0) ∧
      (inRange op s.la.toNat s.lb.toNat = false → t.err = true) :=
  ⟨_, step_complete hc hop, State.finish_busy .., State.finish_done .., State.finish_res .., fun hr => by
    rw [State.finish_err, hr, Bool.not_false, Bool.or_true]⟩

/-- With a command in flight and no reset listed, a run of host accesses leads to a completion on the same latches. -/
theorem exists_run_to_completion {s : State} (hb : s.busy = true) (hr : .reset ∉ s.events) :
    ∃ j u, j ≤ s.events.length ∧ runSteps j s = .next u ∧ u.completes ∧ u.lop = s.lop ∧ u.la = s.la ∧ u.lb = s.lb := by
  generalize he : s.events = es at hr
  induction es generalizing s with
  | nil => exact ⟨0, s, le_rfl, rfl, ⟨hb, .inl he⟩, rfl, rfl, rfl⟩
  | cons e es ih =>
    cases e with
    | engine => exact ⟨0, s, Nat.zero_le _, rfl, ⟨hb, .inr ⟨es, he⟩⟩, rfl, rfl, rfl⟩
    | reset => simp at hr
    | host a =>
      obtain ⟨v, hv, -, hbusy, hlop, hla, hlb, hevents⟩ := exists_step_host_of_busy hb he
      obtain ⟨j, u, hj, hu, hc, hlop', hla', hlb'⟩ := ih hbusy hevents fun h => hr (.tail _ h)
      exact ⟨j + 1, u, Nat.succ_le_succ hj, (runSteps_succ hv).trans hu, hc, hlop'.trans hlop, hla'.trans hla,
        hlb'.trans hlb⟩

/-- Settles O23: the invariants keep the run going to its last turn, the engine's; and host accesses alone come before the
completion. -/
theorem everyCommandCompletes : Obligations.EveryCommandCompletes := by
  refine fun s hinv => ⟨?_, fun op hb hop hr => ?_⟩
  · obtain ⟨u, hu, hinv'⟩ := hinv.exists_runSteps s.events.length
    have hevents : u.events = [] := by rw [events_of_runSteps hu, List.drop_length]
    obtain ⟨t, ht⟩ := hinv'.exists_step
    exact ⟨t, runSteps_succ_iff.2 ⟨u, hu, ht⟩, busy_eq_false_of_engineNext (.inl hevents) ht, by
      rw [events_of_step ht, hevents, List.tail_nil]⟩
  · obtain ⟨j, u, hj, hu, hc, hlop, hla, hlb⟩ := exists_run_to_completion hb hr
    obtain ⟨t, ht, hbusy, hdone, hres, herr⟩ := exists_step_complete hc (hlop.trans hop)
    rw [hla, hlb] at hres herr
    exact ⟨j, u, t, hj, hu, hc, ht, hbusy, hdone, hres, herr⟩

end Sys2Proof.Machine
end

section
/-! PROOFS. The host's writes to the register window (R36), its bytes (R32), and bus errors (R33, R67): O27, O29, O30, O32, O33,
O35 and O36. -/

namespace Sys2Proof.Machine

namespace State

/-! The two words that are not registers of operands, bit by bit. -/

theorem getLsbD_statusWord (s : State) {k : Nat} (hk : k < 32) : s.statusWord.getLsbD k =
    (if k = 0 then s.busy else if k = 1 then s.done else if k = 2 then s.err
      else if 8 ≤ k ∧ k ≤ 11 then s.errcode.getLsbD (k - 8) else false) := by
  simp only [statusWord, BitVec.getLsbD_or, BitVec.getLsbD_shiftLeft, getLsbD_bit, BitVec.getLsbD_setWidth]
  split_ifs with h0 h1 h2 h8
  · simp [h0]
  · simp [h1]
  · simp [h2]
  · have hlow : ¬ k - 2 = 0 ∧ ¬ k - 1 = 0 ∧ ¬ k < 8 := by omega
    simp [h0, hlow, hk, show k - 8 < 32 by omega]
  · have hlow : k < 8 ∨ s.errcode.getLsbD (k - 8) = false := by
      by_cases hk8 : k < 8
      · exact .inl hk8
      · exact .inr (BitVec.getLsbD_of_ge _ _ (by omega))
    have hhigh : ¬ k - 2 = 0 ∧ ¬ k - 1 = 0 := by omega
    rcases hlow with hlow | hlow <;> simp [h0, hlow, hhigh]

theorem getLsbD_ctrlWord (s : State) {k : Nat} (hk : k < 32) : s.ctrlWord.getLsbD k =
    (if k ≤ 3 then s.op.getLsbD k else if k = 16 then s.ie else false) := by
  simp only [ctrlWord, BitVec.getLsbD_or, BitVec.getLsbD_shiftLeft, getLsbD_bit, BitVec.getLsbD_setWidth]
  split_ifs with h3 h16
  · simp [show k < 16 by omega, hk]
  · simp [h16]
  · have hhigh : s.op.getLsbD k = false := BitVec.getLsbD_of_ge _ _ (by omega)
    have hlow : k < 16 ∨ ¬ k - 16 = 0 := by omega
    rcases hlow with hlow | hlow <;> simp [hlow, hhigh]

end State

/-- Settles O32: the words of the two reads, bit by bit. -/
theorem statusAndCtrlReadBits : Obligations.StatusAndCtrlReadBits :=
  fun s => ⟨⟨s.statusWord, s.busRead_status, fun _ => s.getLsbD_statusWord⟩,
    ⟨s.ctrlWord, s.busRead_ctrl, fun _ => s.getLsbD_ctrlWord⟩⟩

/-- The mask of STATUS's two writable bits. -/
theorem getLsbD_statusMask (k : Nat) : (0x00000006 : Word).getLsbD k = true ↔ k = 1 ∨ k = 2 := by
  by_cases hk : k < 32
  · revert k; decide
  · rw [BitVec.getLsbD_of_ge _ _ (Nat.not_lt.1 hk)]
    exact iff_of_false Bool.false_ne_true (by omega)

/-- Settles O33: a CTRL write reads START, OP and IE of its word, and a STATUS write reads bits 1 and 2. -/
theorem reservedBitsOfAWriteHaveNoEffect : Obligations.ReservedBitsOfAWriteHaveNoEffect := by
  refine fun s es v v' => ⟨fun h => ?_, fun h => ?_⟩
  · obtain ⟨hstart, hop, hie⟩ := and_wordMask_eq_iff.1 h
    rw [step_ctrl (State.withEvents_events ..), step_ctrl (State.withEvents_events ..), State.ctrlWrite_eq,
      State.ctrlWrite_eq, hstart, hop, hie]
    rfl
  · have hbits := and_eq_and_iff_getLsbD.1 h
    rw [step_status (State.withEvents_events ..), step_status (State.withEvents_events ..), State.statusWrite_eq,
      State.statusWrite_eq, hbits 1 (by decide), hbits 2 (by decide)]
    rfl

/-! What a host write does at each offset (R36). -/

namespace State

variable (s : State) {off sz i : Nat} {en : BitVec 4} (v : Word)

/-- A STATUS write as one update, its flags masked by the word's bits (R23). -/
theorem statusWrite_eq_and : s.statusWrite v = { s with
    done := s.done && !v.getLsbD 1, err := s.err && !v.getLsbD 2, errcode := if v.getLsbD 2 then 0 else s.errcode } := by
  rw [statusWrite_eq]
  cases v.getLsbD 1 <;> cases v.getLsbD 2 <;> simp

theorem busWrite_of_not_whole_word (h : sz ≠ 4 ∨ off % 4 ≠ 0 ∨ en ≠ 0xF) :
    s.busWrite off sz en v = .next (s.respond (.busError off)) :=
  if_pos h

theorem busWrite_opa (hi : i < 12) :
    s.busWrite (0x100 + 4 * i) 4 0xF v = .next ((s.respond .completes).setOpaWord i v) := by
  rw [busWrite, if_neg (by simp), if_neg (by omega), if_neg (by omega), if_pos (by omega), wordIndex_eq]

theorem busWrite_opb (hi : i < 12) :
    s.busWrite (0x140 + 4 * i) 4 0xF v = .next ((s.respond .completes).setOpbWord i v) := by
  rw [busWrite, if_neg (by simp), if_neg (by omega), if_neg (by omega), if_neg (by omega), if_pos (by omega),
    wordIndex_eq]

theorem busWrite_res (hi : i < 12) : s.busWrite (0x180 + 4 * i) 4 0xF v = .next (s.respond .completes) := by
  rw [busWrite, if_neg (by simp), if_neg (by omega), if_neg (by omega), if_neg (by omega), if_neg (by omega),
    if_pos (by omega)]

/-- In the gaps between the registers, and past RES, a write of any form gets a bus error. -/
theorem busWrite_of_reserved
    (h : (8 ≤ off ∧ off < 0x100) ∨ (0x130 ≤ off ∧ off < 0x140) ∨ (0x170 ≤ off ∧ off < 0x180) ∨ 0x1B0 ≤ off) :
    s.busWrite off sz en v = .next (s.respond (.busError off)) := by
  by_cases hw : sz ≠ 4 ∨ off % 4 ≠ 0 ∨ en ≠ 0xF
  · exact s.busWrite_of_not_whole_word v hw
  · rw [busWrite, if_neg hw, if_neg (by omega), if_neg (by omega), if_neg (by omega), if_neg (by omega),
      if_neg (by omega)]

end State

/-- Settles O29: each clause is one case of `busWrite`, and a written word is the only one that reads differently. -/
theorem busWriteReachesOneRegister : Obligations.BusWriteReachesOneRegister := by
  intro s es off sz en v h
  have hstep := step_write h
  refine ⟨fun hill => hstep.trans (State.busWrite_of_not_whole_word _ v hill), ?_⟩
  rintro rfl rfl
  refine ⟨?ctrl, ?status, ?opa, ?opb, ?res, fun hgap => hstep.trans (State.busWrite_of_reserved _ v hgap)⟩
  case ctrl => rintro rfl hstart; exact step_ctrl_of_no_start h hstart
  case status =>
    rintro rfl
    exact (step_status h).trans (congrArg _ (State.statusWrite_eq_and ..))
  case opa =>
    rintro i hi rfl
    exact ⟨_, hstep.trans (State.busWrite_opa _ v hi), fun j hj => getWord_setWord _ hj v⟩
  case opb =>
    rintro i hi rfl
    exact ⟨_, hstep.trans (State.busWrite_opb _ v hi), fun j hj => getWord_setWord _ hj v⟩
  case res => rintro i hi rfl; exact hstep.trans (State.busWrite_res _ v hi)

/-! Which accesses get a bus error (R33, R67). -/

theorem mappedOffset_eq_false_iff {off : Nat} (hal : off % 4 = 0) : mappedOffset off = false ↔
    (8 ≤ off ∧ off < 0x100) ∨ (0x130 ≤ off ∧ off < 0x140) ∨ (0x170 ≤ off ∧ off < 0x180) ∨ 0x1B0 ≤ off := by
  simp only [mappedOffset, Bool.or_eq_false_iff, Bool.and_eq_false_iff, beq_eq_false_iff_ne, decide_eq_false_iff_not]
  omega

/-- The register words of the map (R31). -/
theorem mappedOffset_cases {off : Nat} (hal : off % 4 = 0) (h : mappedOffset off = true) :
    off = 0x000 ∨ off = 0x004 ∨ ∃ i < 12, off = 0x100 + 4 * i ∨ off = 0x140 + 4 * i ∨ off = 0x180 + 4 * i := by
  simp only [mappedOffset, Bool.or_eq_true, Bool.and_eq_true, beq_iff_eq, decide_eq_true_iff] at h
  rcases h with (((h | h) | h) | h) | h
  · exact .inl h
  · exact .inr (.inl h)
  · exact .inr (.inr ⟨(off - 0x100) / 4, by omega⟩)
  · exact .inr (.inr ⟨(off - 0x140) / 4, by omega⟩)
  · exact .inr (.inr ⟨(off - 0x180) / 4, by omega⟩)

namespace State

variable (s : State)

theorem access_of_not_wellFormed {a : Access} (h : a.wellFormed = false) :
    ∃ off, s.access a = .next (s.respond (.busError off)) := by
  cases a with
  | read off sz =>
    refine ⟨off, congrArg (fun r => Host.Outcome.next (s.respond r)) ?_⟩
    by_cases hw : sz ≠ 4 ∨ off % 4 ≠ 0
    · exact s.busRead_of_not_aligned_word hw
    · obtain ⟨rfl, hal⟩ : sz = 4 ∧ off % 4 = 0 := by omega
      exact s.busRead_of_reserved 4 ((mappedOffset_eq_false_iff hal).1 (by simpa [Access.wellFormed, hal] using h))
  | write off sz en v =>
    refine ⟨off, ?_⟩
    by_cases hw : sz ≠ 4 ∨ off % 4 ≠ 0 ∨ en ≠ 0xF
    · exact s.busWrite_of_not_whole_word v hw
    · obtain ⟨rfl, hal, rfl⟩ : sz = 4 ∧ off % 4 = 0 ∧ en = 0xF := by simpa only [not_or, not_not] using hw
      exact s.busWrite_of_reserved v ((mappedOffset_eq_false_iff hal).1 (by simpa [Access.wellFormed, hal] using h))

theorem busRead_of_mapped {off : Nat} (hal : off % 4 = 0) (h : mappedOffset off = true) :
    ∃ w, s.busRead off 4 = .data w := by
  rcases mappedOffset_cases hal h with rfl | rfl | ⟨i, hi, rfl | rfl | rfl⟩
  · exact ⟨_, s.busRead_ctrl⟩
  · exact ⟨_, s.busRead_status⟩
  · exact ⟨_, s.busRead_opa hi⟩
  · exact ⟨_, s.busRead_opb hi⟩
  · exact ⟨_, s.busRead_res hi⟩

theorem busWrite_of_mapped {off : Nat} (hal : off % 4 = 0) (h : mappedOffset off = true) (v : Word) :
    ∃ t, s.busWrite off 4 0xF v = .next t ∧ t.responses = .completes :: s.responses := by
  rcases mappedOffset_cases hal h with rfl | rfl | ⟨i, hi, rfl | rfl | rfl⟩
  · refine ⟨_, (s.respond .completes).ctrlWrite_eq v, ?_⟩
    split
    · exact (startCommand_world _ _ _).2
    · rfl
  · exact ⟨_, rfl, statusWrite_responses ..⟩
  · exact ⟨_, s.busWrite_opa v hi, rfl⟩
  · exact ⟨_, s.busWrite_opb v hi, rfl⟩
  · exact ⟨_, s.busWrite_res v hi, rfl⟩

/-- A well-formed access is answered by a word or by the completion of a write (R33). -/
theorem access_of_wellFormed {a : Access} (h : a.wellFormed = true) :
    ∃ t r, s.access a = .next t ∧ t.responses = r :: s.responses ∧ ∀ off, r ≠ .busError off := by
  cases a with
  | read off sz =>
    simp only [Access.wellFormed, Bool.and_eq_true, beq_iff_eq] at h
    obtain ⟨⟨rfl, hal⟩, hm⟩ := h
    obtain ⟨w, hw⟩ := s.busRead_of_mapped hal hm
    exact ⟨_, .data w, rfl, by rw [hw, respond_responses], nofun⟩
  | write off sz en v =>
    simp only [Access.wellFormed, Bool.and_eq_true, beq_iff_eq] at h
    obtain ⟨⟨⟨rfl, hal⟩, rfl⟩, hm⟩ := h
    obtain ⟨t, ht, hr⟩ := s.busWrite_of_mapped hal hm v
    exact ⟨t, .completes, ht, hr, nofun⟩

end State

theorem step_host {s : State} {a : Access} {es : List Event} (h : s.events = .host a :: es) :
    step s = (s.withEvents es).access a := by
  simp [step, State.nextTurn, State.turn, h]

/-- Settles O30: the access by whether it is well formed; a bus error is a response and nothing else. -/
theorem onlyIllFormedAccessesGetABusError : Obligations.OnlyIllFormedAccessesGetABusError := by
  refine fun s es a h => ⟨fun hwf => ?_, fun hwf => ?_⟩
  · obtain ⟨off, e⟩ := (s.withEvents es).access_of_not_wellFormed hwf
    exact ⟨off, _, (step_host h).trans e, rfl, rfl, rfl⟩
  · rw [step_host h]
    exact (s.withEvents es).access_of_wellFormed hwf

/-! The bytes of the window (R32). -/

/-- Byte k of word i of a register, with j = 4i + k, is the j-th byte of its value. -/
theorem byteOfWord_getWord (x : Reg) (j : Nat) :
    byteOfWord (getWord x (j / 4)) (j % 4) = BitVec.ofNat 8 (x.toNat / 2 ^ (8 * j)) := by
  refine BitVec.eq_of_getLsbD_eq fun m hm => ?_
  have hin : 8 * (j % 4) + m < 32 := by omega
  have hbit : 32 * (j / 4) + (8 * (j % 4) + m) = m + 8 * j := by omega
  simp only [byteOfWord, getWord, BitVec.getLsbD_extractLsb', hm, hin, decide_true, Bool.true_and, hbit,
    BitVec.getLsbD_ofNat, Nat.testBit_div_two_pow, BitVec.testBit_toNat]

namespace State

/-- Past STATUS the window shows the operands and RES alone (R31). -/
theorem busRead_congr {s t : State} {off : Nat} (sz : Nat) (hoff : 8 ≤ off) (hopa : s.opa = t.opa) (hopb : s.opb = t.opb)
    (hres : s.res = t.res) : s.busRead off sz = t.busRead off sz := by
  have h0 : off ≠ 0x000 := by omega
  have h4 : off ≠ 0x004 := by omega
  simp only [busRead, if_neg h0, if_neg h4, hopa, hopb, hres]

/-- A byte of the window is that byte of the word around it. -/
theorem windowByte_add (s : State) {off k : Nat} {w : Word} (hk : k < 4) (h : s.busRead off 4 = .data w) :
    s.windowByte (off + k) = some (byteOfWord w k) := by
  have hal : off % 4 = 0 := by
    by_contra hal
    rw [s.busRead_of_not_aligned_word (.inr hal)] at h
    cases h
  have hword : off + k - (off + k) % 4 = off := by omega
  have hbyte : (off + k) % 4 = k := by omega
  rw [windowByte, hword, hbyte, h]

/-- Where a register's twelve words can be read, its byte j is the j-th byte of its value. -/
theorem windowByte_of_register (s : State) {reg : Nat} {x : Reg}
    (h : ∀ i < 12, s.busRead (reg + 4 * i) 4 = .data (getWord x i)) {j : Nat} (hj : j < 48) :
    s.windowByte (reg + j) = some (BitVec.ofNat 8 (x.toNat / 2 ^ (8 * j))) := by
  have hoff : reg + j = reg + 4 * (j / 4) + j % 4 := by omega
  rw [hoff, s.windowByte_add (Nat.mod_lt _ (by decide)) (h (j / 4) (by omega)), byteOfWord_getWord]

end State

/-- Settles O35: a byte is read off its word, and each register's words can be read. -/
theorem windowBytesAreLittleEndian : Obligations.WindowBytesAreLittleEndian :=
  ⟨fun s _ _ _ hk h => s.windowByte_add hk h, fun s _ hj => ⟨s.windowByte_of_register (fun _ => s.busRead_opa) hj,
    s.windowByte_of_register (fun _ => s.busRead_opb) hj, s.windowByte_of_register (fun _ => s.busRead_res) hj⟩⟩

/-- A command word leaves the operands, RES and the outside world's fields alone, and a command in flight with its DONE. -/
theorem startCommand_frame (s : State) (x : OpBits) (b : Bool) :
    (s.startCommand x b).opa = s.opa ∧ (s.startCommand x b).opb = s.opb ∧ (s.startCommand x b).res = s.res ∧
      (s.busy = true → (s.startCommand x b).busy = true ∧ (s.startCommand x b).done = s.done ∧
        (s.startCommand x b).lop = s.lop ∧ (s.startCommand x b).la = s.la ∧ (s.startCommand x b).lb = s.lb) := by
  obtain ⟨-, -, hopa, hopb, hres⟩ := (s.setCtrl x b).startRequest_frame x
  refine ⟨hopa, hopb, hres, fun hb => ?_⟩
  rw [State.startCommand_of_busy hb]
  exact ⟨hb, rfl, rfl, rfl, rfl⟩

/-- Settles O27: every command word is a START, and past STATUS the window shows only what a START leaves alone. -/
theorem commandsLeaveTheOtherRegistersAlone : Obligations.CommandsLeaveTheOtherRegistersAlone := by
  intro i s
  obtain ⟨hopa, hopb, hres, hflight⟩ := startCommand_frame s i.opcode.bits i.ie
  obtain ⟨hevents, hresponses⟩ := startCommand_world s i.opcode.bits i.ie
  refine ⟨_, exec_eq i s, hopa, hopb, hres, hevents, hresponses, hflight, fun a ha => ?_⟩
  rw [State.windowByte, State.windowByte, State.busRead_congr 4 (by omega) hopa hopb hres]

/-! The place of the window (R13, R30). -/

theorem windowOffset_base_add {off : Nat} (h : off < 0x200) : windowOffset (Config.base + off) = some off := by
  rw [windowOffset, if_pos ⟨Nat.le_add_right .., Nat.add_lt_add_left h _⟩, Nat.add_sub_cancel_left]

theorem windowOffset_outside {addr : Nat} (h : addr < Config.base ∨ Config.base + 0x200 ≤ addr) :
    windowOffset addr = none :=
  if_neg fun ⟨hlo, hhi⟩ => h.elim hlo.not_gt hhi.not_ge

/-- Settles O36: inside the window the offset is the address less BASE, and outside there is none. -/
theorem windowLiesAtBase : Obligations.WindowLiesAtBase := by
  refine ⟨Nat.mul_mod_right .., fun s off n v h => ⟨?_, ?_⟩, fun s addr n v h => ⟨?_, ?_⟩⟩
  · rw [State.memRead, windowOffset_base_add h, Option.map_some]
  · rw [State.memWrite, windowOffset_base_add h, Option.map_some]
  · rw [State.memRead, windowOffset_outside h, Option.map_none]
  · rw [State.memWrite, windowOffset_outside h, Option.map_none]

end Sys2Proof.Machine
end

section
/-! PROOFS. Command words at the CTRL register, and reset (R44, R46, R80): O1, O4, O11 and O37. -/

namespace Sys2Proof

open Machine

/-- Settles O1: each word is computed. -/
theorem tableWordsDecode : Obligations.TableWordsDecode := by
  unfold Obligations.TableWordsDecode
  decide

/-- A word of 32 bits, as the table numbers it, is the word itself. -/
theorem tableWord_toNat (v : Word) : tableWord 32 v.toNat = v := by
  rw [tableWord, Nat.mod_eq_of_lt v.isLt, BitVec.ofNat_toNat, BitVec.setWidth_eq]

theorem decodeTableWord_toNat {v : Word} {i : Instr} (h : decode v = .command i) :
    decodeTableWord 32 v.toNat = some i := by
  simp only [decodeTableWord, tableWord_toNat, decodeBytes, wordOfBytes_byteOfWord, h]

theorem Machine.step_ctrl_of_command {s : State} {es : List Event} {v : Word} {i : Instr}
    (he : s.events = .host (.write 0x000 4 0xF v) :: es) (h : decode v = .command i) :
    step s = exec i ((s.withEvents es).respond .completes) := by
  rw [step_ctrl he, State.ctrlWrite, h]

/-- Settles O4: the step is the CTRL write, which runs what the word decodes to. -/
theorem stepRunsTheDecodedCommand : Obligations.StepRunsTheDecodedCommand := by
  refine ⟨fun s es v i he h => step_ctrl_of_command he h, fun s v i h => ⟨decodeTableWord_toNat h, ?_⟩⟩
  have he : (s.withFetchWord 32 v.toNat).events = .host (.write 0x000 4 0xF v) :: s.events := by
    rw [State.withFetchWord, tableWord_toNat, State.withEvents_events, ctrlAccess]
  rw [step_ctrl_of_command he h]
  rfl

/-- Settles O11: facts about the digits of p, each computed. -/
theorem modulusHasTheReportedForm : Obligations.ModulusHasTheReportedForm := by
  refine ⟨?_, ?_, ?_, ?_, ?_⟩ <;> decide +kernel

/-- Settles O37: the step of reset, and an engine's turn that finds BUSY = 0 after it. -/
theorem resetAbandonsTheCommandInFlight : Obligations.ResetAbandonsTheCommandInFlight := by
  refine fun s es he => ⟨_, step_reset he, rfl, rfl, ?_⟩
  rintro fs rfl
  exact step_idle (.inr ⟨fs, rfl⟩) rfl

end Sys2Proof
end

section
/-! PROOFS. Host transactions before and after a completion (R39, R69 (d), R84): O41, O43 and O45. -/

namespace Sys2Proof.Machine

/-- A host access to a block with a command in flight, and then that command's completion, on the latches it had before. -/
theorem exists_host_then_completion {s : State} {a : Access} {es : List Event} {op : Opcode} (hb : s.busy = true)
    (hop : s.lop = op.bits) (he : s.events = .host a :: .engine :: es) :
    ∃ u, step s = .next u ∧ step u = .next ((u.withEvents es).finish (inRange op (val s.la) (val s.lb))
      (result op (val s.la) (val s.lb))) := by
  obtain ⟨u, hu, -, hbusy, hlop, hla, hlb, hevents⟩ := exists_step_host_of_busy hb he
  refine ⟨u, hu, ?_⟩
  rw [step_complete ⟨hbusy, .inr ⟨es, hevents⟩⟩ (hlop.trans hop), hevents, hla, hlb, List.tail_cons]

/-- Settles O41: the host's step leaves the command in flight, and the completion after it is that command's. -/
theorem hostThenCompletionInOneCycle : Obligations.HostThenCompletionInOneCycle := by
  refine fun s es op hb hop => ⟨fun v he => ?status, fun v he hstart herr => ?start, fun he => ?read⟩ <;>
    obtain ⟨u, hu, ht⟩ := exists_host_then_completion hb hop he
  case status => exact ⟨_, runSteps_two hu ht, State.finish_done ..⟩
  case start =>
    obtain ⟨hrejected, -⟩ := startRequestAcceptsOrRejects s _ v he hstart
    have hu' := hrejected hb
    rw [hu] at hu'
    cases hu'
    exact ⟨_, runSteps_two hu ht, State.finish_busy .., State.finish_done .., by simp, by simp [herr],
      State.finish_res ..⟩
  case read =>
    have hu' := step_read he
    rw [hu, s.busRead_status] at hu'
    cases hu'
    exact ⟨_, s.statusWord, runSteps_two hu ht, by simp, (HostNotation.statusWord_busyBit s).trans hb⟩

/-! The two operand registers, under one name. -/

/-- OPA or OPB (R17, R18). -/
inductive Operand where
  | a
  | b

namespace Operand

/-- The window offset of the register. -/
def offset : Operand → Nat
  | a => 0x100
  | b => 0x140

/-- The register's value in a state. -/
def get : Operand → State → Reg
  | a, s => s.opa
  | b, s => s.opb

/-- The state with the register at another value. -/
def set : Operand → State → Reg → State
  | a, s, x => { s with opa := x }
  | b, s, x => { s with opb := x }

variable (o : Operand) (s : State)

@[simp] theorem get_set (x : Reg) : o.get (o.set s x) = x := by cases o <;> rfl
@[simp] theorem set_set (x y : Reg) : o.set (o.set s x) y = o.set s y := by cases o <;> rfl
@[simp] theorem set_busy (x : Reg) : (o.set s x).busy = s.busy := by cases o <;> rfl
@[simp] theorem set_lop (x : Reg) : (o.set s x).lop = s.lop := by cases o <;> rfl
@[simp] theorem set_la (x : Reg) : (o.set s x).la = s.la := by cases o <;> rfl
@[simp] theorem set_lb (x : Reg) : (o.set s x).lb = s.lb := by cases o <;> rfl
@[simp] theorem set_events (x : Reg) : (o.set s x).events = s.events := by cases o <;> rfl
@[simp] theorem set_responses (x : Reg) : (o.set s x).responses = s.responses := by cases o <;> rfl

@[simp] theorem set_withEvents (x : Reg) (es : List Event) : (o.set s x).withEvents es = o.set (s.withEvents es) x := by
  cases o <;> rfl

@[simp] theorem get_withEvents (es : List Event) : o.get (s.withEvents es) = o.get s := by cases o <;> rfl

/-- A completion leaves the operand registers alone, so it commutes with writing one (R84). -/
theorem set_finish (ok : Bool) (v : Nat) (x : Reg) : (o.set s x).finish ok v = o.set (s.finish ok v) x := by
  cases o <;> cases ok <;> rfl

@[simp] theorem get_finish (ok : Bool) (v : Nat) : o.get (s.finish ok v) = o.get s := by
  cases o
  · exact State.finish_opa ..
  · exact State.finish_opb ..

end Operand

namespace State

variable (s : State) (ok : Bool) (n : Nat)

theorem respond_withEvents (r : Response) (es : List Event) : (s.respond r).withEvents es = (s.withEvents es).respond r := rfl

theorem finish_withEvents (es : List Event) : (s.finish ok n).withEvents es = (s.withEvents es).finish ok n := by
  cases ok <;> rfl

theorem finish_respond (r : Response) : (s.finish ok n).respond r = (s.respond r).finish ok n := by
  cases ok <;> rfl

end State

/-- A host write to word i of an operand register writes that word alone (R36). -/
theorem step_write_operand {s : State} {o : Operand} {i : Nat} {v : Word} {es : List Event} (hi : i < 12)
    (he : s.events = .host (.write (o.offset + 4 * i) 4 0xF v) :: es) :
    step s = .next (o.set ((s.withEvents es).respond .completes) (setWord (o.get s) i v)) := by
  rw [step_write he]
  cases o with
  | a => exact State.busWrite_opa _ v hi
  | b => exact State.busWrite_opb _ v hi

/-- The offsets of the operand words are those of word i of OPA or OPB (R31). -/
theorem exists_operand_word {off : Nat} (h : (0x100 ≤ off ∧ off ≤ 0x12C) ∨ (0x140 ≤ off ∧ off ≤ 0x16C))
    (hal : off % 4 = 0) : ∃ (o : Operand) (i : Nat), i < 12 ∧ off = o.offset + 4 * i := by
  rcases h with h | h
  · exact ⟨.a, (off - 0x100) / 4, by omega, by rw [Operand.offset]; omega⟩
  · exact ⟨.b, (off - 0x140) / 4, by omega, by rw [Operand.offset]; omega⟩

section OperandWrite

variable {s : State} {es : List Event} {op : Opcode} {o : Operand} {i : Nat} {v : Word}

/-- The state after an operand write and the completion of the command in flight, in either order. -/
def afterWriteAndCompletion (s : State) (es : List Event) (op : Opcode) (o : Operand) (i : Nat) (v : Word) : State :=
  o.set (((s.withEvents es).respond .completes).finish (inRange op (val s.la) (val s.lb)) (result op (val s.la) (val s.lb)))
    (setWord (o.get s) i v)

theorem runSteps_write_completion (hb : s.busy = true) (hop : s.lop = op.bits) (hi : i < 12) :
    runSteps 2 (s.withEvents (.host (.write (o.offset + 4 * i) 4 0xF v) :: .engine :: es)) =
      .next (afterWriteAndCompletion s es op o i v) := by
  rw [runSteps_two (step_write_operand hi rfl)
    (step_complete (op := op) ⟨by simpa using hb, .inr ⟨es, by simp⟩⟩ (by simpa using hop))]
  simp [afterWriteAndCompletion, Operand.set_finish, State.respond_withEvents]

theorem runSteps_completion_write (hb : s.busy = true) (hop : s.lop = op.bits) (hi : i < 12) :
    runSteps 2 (s.withEvents (.engine :: .host (.write (o.offset + 4 * i) 4 0xF v) :: es)) =
      .next (afterWriteAndCompletion s es op o i v) := by
  have hcomplete := step_complete (s := s.withEvents (.engine :: .host (.write (o.offset + 4 * i) 4 0xF v) :: es))
    ⟨hb, .inr ⟨_, rfl⟩⟩ hop
  rw [runSteps_two hcomplete (step_write_operand (o := o) (v := v) (es := es) hi (by simp))]
  simp [afterWriteAndCompletion, State.finish_withEvents, State.finish_respond]

end OperandWrite

/-- Settles O43: a completion reads the latches and a host write does not, so either order leaves the same state. -/
theorem operandWriteCommutesWithCompletion : Obligations.OperandWriteCommutesWithCompletion := by
  intro s es op off v hb hop hoff hal
  obtain ⟨o, i, hi, rfl⟩ := exists_operand_word hoff hal
  exact ⟨_, runSteps_write_completion hb hop hi, runSteps_completion_write hb hop hi⟩

/-! Two START words in a row (R39). -/

section Start

variable {s : State} {es : List Event} {i : Instr}

theorem step_start_of_idle (he : s.events = .host (ctrlAccess (encode i)) :: es) (hb : s.busy = false) :
    step s = .next ((((s.withEvents es).respond .completes).setCtrl i.opcode.bits i.ie).accept i.opcode.bits) := by
  rw [step_ctrl_eq_startCommand he (ctrlStart_encode i), ctrlOp_encode, ctrlIe_encode,
    State.startCommand_of_legal (by simpa using hb)]

theorem step_start_of_busy (he : s.events = .host (ctrlAccess (encode i)) :: es) (hb : s.busy = true) :
    step s = .next ((((s.withEvents es).respond .completes).setCtrl i.opcode.bits i.ie).reject startBusy) := by
  rw [step_ctrl_eq_startCommand he (ctrlStart_encode i), ctrlOp_encode, ctrlIe_encode,
    State.startCommand_of_busy (by simpa using hb)]

/-- A START and its completion leave the block idle, with the next turns to come. -/
theorem exists_runSteps_start_completion (he : s.events = .host (ctrlAccess (encode i)) :: .engine :: es)
    (hb : s.busy = false) : ∃ u, runSteps 2 s = .next u ∧ u.busy = false ∧ u.events = es := by
  have hu := step_complete (op := i.opcode) (s := (((s.withEvents (.engine :: es)).respond .completes).setCtrl
    i.opcode.bits i.ie).accept i.opcode.bits) ⟨rfl, .inr ⟨es, rfl⟩⟩ rfl
  exact ⟨_, runSteps_two (step_start_of_idle he hb) hu, State.finish_busy .., State.finish_events ..⟩

end Start

/-- Settles O45: the first START is accepted, and the second finds BUSY = 0 after the completion and BUSY = 1 before it. -/
theorem secondStartDependsOnTheCompletion : Obligations.SecondStartDependsOnTheCompletion := by
  refine fun s es i j hb => ⟨?_, ?_⟩
  · obtain ⟨u, hu, hbusy, hevents⟩ := exists_runSteps_start_completion (s := s.withEvents _) rfl hb
    exact ⟨_, runSteps_succ_iff.2 ⟨u, hu, step_start_of_idle hevents hbusy⟩, rfl, rfl, rfl, rfl⟩
  · have hfirst := step_start_of_idle (s := s.withEvents
      (.host (ctrlAccess (encode i)) :: .host (ctrlAccess (encode j)) :: es)) rfl hb
    exact ⟨_, runSteps_two hfirst (step_start_of_busy rfl rfl), rfl, rfl, rfl, rfl⟩

end Sys2Proof.Machine
end

section
/-! PROOFS. The informative word-serial algorithms of 40_montgomery.md section 5 (log entry 15): O50 and O51. -/

namespace Sys2Proof.Machine

/-- A digit m chosen as the algorithm does clears the lowest limb of x, for any modulus y with −y⁻¹ = cinv. -/
theorem dvd_add_digit_mul {x y m : Nat} (hy : 2 ^ 64 ∣ cinv * y + 1) (hm : m ≡ x * cinv [MOD 2 ^ 64]) :
    2 ^ 64 ∣ x + m * y := by
  have hcongr : x + m * y ≡ x + x * cinv * y [MOD 2 ^ 64] := (hm.mul_right y).add_left x
  have hfactor : x + x * cinv * y = x * (cinv * y + 1) := by ring
  rw [hfactor] at hcongr
  exact (hcongr.dvd_iff dvd_rfl).2 (hy.mul_left x)

theorem cinv_mul_p : 2 ^ 64 ∣ cinv * Config.p + 1 := by decide +kernel

/-! From an exact reduction to the result. -/

theorem cast_subtractOnce (u : Nat) : (subtractOnce u : ZMod Config.p) = u := by
  unfold subtractOnce
  split
  next h => rw [Nat.cast_sub h, ZMod.natCast_self, sub_zero]
  next => rfl

theorem subtractOnce_lt {u : Nat} (h : u < 2 * Config.p) : subtractOnce u < Config.p := by
  unfold subtractOnce
  split <;> omega

/-- A value that times R is T and a multiple of p below R·p, with T < p·R, is below 2p. -/
theorem lt_two_mul_p_of_exact {V T M : Nat} (hV : V * Config.R = T + M * Config.p) (hM : M < Config.R)
    (hT : T < Config.p * Config.R) : V < 2 * Config.p := by
  refine Nat.lt_of_mul_lt_mul_right (a := Config.R) ?_
  calc V * Config.R = T + M * Config.p := hV
    _ < Config.p * Config.R + Config.R * Config.p :=
      Nat.add_lt_add_of_lt_of_le hT (Nat.mul_le_mul_right _ hM.le)
    _ = 2 * Config.p * Config.R := by ring

/-- One subtraction then leaves T·R⁻¹ mod p: the two are congruent, and both are below p. -/
theorem result_eq_subtractOnce {op : Opcode} {A B V T M : Nat}
    (hT : (result op A B : ZMod Config.p) = T * Config.Rinv) (hV : V * Config.R = T + M * Config.p)
    (hlt : V < 2 * Config.p) : result op A B = subtractOnce V := by
  have hcast : (V : ZMod Config.p) * Config.R = T := by
    rw [← Nat.cast_mul, hV, Nat.cast_add, Nat.cast_mul, ZMod.natCast_self, mul_zero, add_zero]
  refine result_eq_of_cast_eq (subtractOnce_lt hlt) ?_
  rw [hT, cast_subtractOnce, ← hcast, mul_assoc, Config.cast_R_mul_cast_Rinv, mul_one]

/-! The reduction on whole numbers. -/

/-- One round adds a multiple of p that clears the lowest limb, and drops that limb. -/
theorem redc_round_exact (u : Nat) :
    (u + u % 2 ^ 64 * cinv % 2 ^ 64 * Config.p) / 2 ^ 64 * 2 ^ 64 = u + u % 2 ^ 64 * cinv % 2 ^ 64 * Config.p :=
  Nat.div_mul_cancel (dvd_add_digit_mul cinv_mul_p ((Nat.mod_modEq _ _).trans ((Nat.mod_modEq _ _).mul_right _)))

/-- The digits of a round and of the rounds after it make one number, which the limbs bound. -/
theorem digit_add_mul_lt {b m M N : Nat} (hm : m < b) (hM : M < N) : m + b * M < N * b := by
  calc m + b * M < b + b * M := Nat.add_lt_add_right hm _
    _ = (M + 1) * b := by ring
    _ ≤ N * b := Nat.mul_le_mul_right _ hM

theorem redcLoop_zero (u : Nat) : redcLoop 0 u = u := rfl

/-- Proved of the functions first: on two values the kernel's check by computation would count through the digits of p. -/
theorem redcLoop_succ (n u : Nat) :
    redcLoop (n + 1) u = redcLoop n ((u + u % 2 ^ 64 * cinv % 2 ^ 64 * Config.p) / 2 ^ 64) := by
  have hfun : redcLoop (n + 1) = fun u => redcLoop n ((u + u % 2 ^ 64 * cinv % 2 ^ 64 * Config.p) / 2 ^ 64) := rfl
  exact congrFun hfun u

/-- n rounds add a multiple of p that n limbs bound, and drop n limbs that are then 0. -/
theorem redcLoop_exact (n u : Nat) :
    ∃ M < (2 ^ 64) ^ n, redcLoop n u * (2 ^ 64) ^ n = u + M * Config.p := by
  induction n generalizing u with
  | zero => exact ⟨0, by simp, by rw [redcLoop_zero, pow_zero, mul_one, Nat.zero_mul, Nat.add_zero]⟩
  | succ n ih =>
    have hround := redc_round_exact u
    rw [redcLoop_succ, pow_succ (2 ^ 64) n]
    have hm : u % 2 ^ 64 * cinv % 2 ^ 64 < 2 ^ 64 := Nat.mod_lt _ (by norm_num)
    generalize u % 2 ^ 64 * cinv % 2 ^ 64 = m at hround hm ⊢
    obtain ⟨M, hM, hloop⟩ := ih ((u + m * Config.p) / 2 ^ 64)
    refine ⟨m + 2 ^ 64 * M, digit_add_mul_lt hm hM, ?_⟩
    rw [← mul_assoc, hloop, Nat.add_mul, hround]
    ring

/-- Settles O51: six rounds reduce T exactly, and T < p·R. -/
theorem wordSerialReductionIsExact : Obligations.WordSerialReductionIsExact := by
  intro A B _ hr
  obtain ⟨M, hM, hloop⟩ := redcLoop_exact 6 (wide A B)
  rw [← Config.R_eq_six_limbs] at hM hloop
  have hlt := lt_two_mul_p_of_exact hloop hM (by rw [Config.R]; exact inRange_mredc_iff.1 hr)
  exact ⟨hlt, (result_eq_subtractOnce (cast_mredc A B) hloop hlt).symm⟩

/-! The limbs of a number. -/

@[simp] theorem valOfLimbs_cons (x : Nat) (l : List Nat) : valOfLimbs (x :: l) = x + 2 ^ 64 * valOfLimbs l := rfl

theorem valOfLimbs_concat (l : List Nat) (x : Nat) : valOfLimbs (l ++ [x]) = valOfLimbs l + (2 ^ 64) ^ l.length * x := by
  induction l with
  | nil => simp [valOfLimbs]
  | cons y l ih =>
    rw [List.cons_append, valOfLimbs_cons, ih, valOfLimbs_cons, List.length_cons]
    ring

@[simp] theorem length_limbsOf (n v : Nat) : (limbsOf n v).length = n := by simp [limbsOf]

/-- n limbs hold a value modulo 2^(64n). -/
theorem valOfLimbs_limbsOf (n v : Nat) : valOfLimbs (limbsOf n v) = v % (2 ^ 64) ^ n := by
  induction n with
  | zero => simp [limbsOf, valOfLimbs, Nat.mod_one]
  | succ n ih =>
    have hsplit : limbsOf (n + 1) v = limbsOf n v ++ [v / (2 ^ 64) ^ n % 2 ^ 64] := by
      simp [limbsOf, List.range_succ, pow_mul]
    rw [hsplit, valOfLimbs_concat, ih, length_limbsOf, Nat.mod_pow_succ (b := 2 ^ 64) (k := n)]

/-- Six limbs hold every number below R. -/
theorem valOfLimbs_limbsOf_of_lt {v : Nat} (h : v < Config.R) : valOfLimbs (limbsOf 6 v) = v := by
  rw [valOfLimbs_limbsOf, ← Config.R_eq_six_limbs, Nat.mod_eq_of_lt h]

/-! The inner loop and one iteration of the outer loop. -/

theorem length_macRow {t a : List Nat} (h : t.length = a.length) (b c : Nat) : (macRow t a b c).1.length = t.length := by
  induction t generalizing a c with
  | nil => simp [macRow]
  | cons x t ih =>
    cases a with
    | nil => simp at h
    | cons y a => simp [macRow, ih (Nat.succ.inj h)]

/-- The inner loop adds a·b and the carry in, exactly: nothing is lost with its carry out. -/
theorem macRow_exact {t a : List Nat} (h : t.length = a.length) (b c : Nat) :
    valOfLimbs (macRow t a b c).1 + (2 ^ 64) ^ t.length * (macRow t a b c).2 = valOfLimbs t + valOfLimbs a * b + c := by
  induction t generalizing a c with
  | nil =>
    cases a with
    | nil => simp [macRow, valOfLimbs]
    | cons y a => simp at h
  | cons x t ih =>
    cases a with
    | nil => simp at h
    | cons y a =>
      have hrest := ih (Nat.succ.inj h) ((x + y * b + c) / 2 ^ 64)
      have hsum := Nat.mod_add_div (x + y * b + c) (2 ^ 64)
      simp only [macRow, valOfLimbs_cons, List.length_cons]
      linear_combination 2 ^ 64 * hrest + hsum

/-- The number that t[0..5] and t[6] hold between iterations. -/
def ciosVal (t : List Nat × Nat) : Nat := valOfLimbs t.1 + (2 ^ 64) ^ 6 * t.2

theorem length_pLimbs : pLimbs.length = 6 := length_limbsOf 6 Config.p

theorem valOfLimbs_pLimbs : valOfLimbs pLimbs = Config.p := valOfLimbs_limbsOf_of_lt Config.p_lt_R

/-- The lowest limb of p has the same inverse as p. -/
theorem pLimbs_eq_cons : ∃ y ys, pLimbs = y :: ys ∧ 2 ^ 64 ∣ cinv * y + 1 :=
  ⟨Config.p % 2 ^ 64, pLimbs.tail, by decide +kernel, by decide +kernel⟩

/-- The second inner loop, with the digit of the lowest limb of l, clears that limb. -/
theorem macRow_pLimbs_eq_cons {l : List Nat} (hl : l.length = 6) :
    ∃ r, (macRow l pLimbs (l.headD 0 * cinv % 2 ^ 64) 0).1 = 0 :: r := by
  obtain ⟨y, ys, hp, hy⟩ := pLimbs_eq_cons
  cases l with
  | nil => cases hl
  | cons x l =>
    have hlow : (x + y * (x * cinv % 2 ^ 64) + 0) % 2 ^ 64 = 0 := by
      rw [Nat.add_zero, mul_comm y]
      exact Nat.mod_eq_zero_of_dvd (dvd_add_digit_mul hy (Nat.mod_modEq _ _))
    rw [hp, List.headD_cons, macRow, hlow]
    exact ⟨_, rfl⟩

/-- The carries of an iteration put together: t6 and t7 lose nothing of t[6] and the two carries out. -/
theorem carries_exact (b t6 c c' : Nat) :
    ((t6 + c) % b + c') % b + b * ((t6 + c) / b + ((t6 + c) % b + c') / b) = t6 + c + c' := by
  linear_combination Nat.mod_add_div ((t6 + c) % b + c') b + Nat.mod_add_div (t6 + c) b

/-- One iteration adds a·b and a multiple of p that clears the lowest limb, and drops that limb. -/
theorem ciosIteration_exact {a : List Nat} (ha : a.length = 6) {t : List Nat × Nat} (ht : t.1.length = 6) (b : Nat) :
    (ciosIteration a t b).1.length = 6 ∧ ∃ m < 2 ^ 64,
      2 ^ 64 * ciosVal (ciosIteration a t b) = ciosVal t + valOfLimbs a * b + m * Config.p := by
  have hrow := macRow_exact (ht.trans ha.symm) b 0
  have hrowLen := length_macRow (ht.trans ha.symm) b 0
  unfold ciosIteration ciosVal
  dsimp only
  generalize macRow t.1 a b 0 = row at hrow hrowLen ⊢
  rw [ht] at hrow hrowLen
  have hlen : row.1.length = pLimbs.length := hrowLen.trans length_pLimbs.symm
  obtain ⟨r, hr⟩ := macRow_pLimbs_eq_cons hrowLen
  have hm : row.1.headD 0 * cinv % 2 ^ 64 < 2 ^ 64 := Nat.mod_lt _ (by norm_num)
  generalize row.1.headD 0 * cinv % 2 ^ 64 = m at hr hm ⊢
  have hred := macRow_exact hlen m 0
  have hredLen := length_macRow hlen m 0
  generalize macRow row.1 pLimbs m 0 = red at hr hred hredLen ⊢
  rw [hrowLen, hr, valOfLimbs_pLimbs, valOfLimbs_cons] at hred
  rw [hr, hrowLen, List.length_cons] at hredLen
  have hrLen : r.length = 5 := Nat.succ.inj hredLen
  rw [hr, List.tail_cons]
  refine ⟨by rw [List.length_append, hrLen, List.length_singleton], m, hm, ?_⟩
  rw [valOfLimbs_concat, hrLen]
  linear_combination hred + hrow + (2 ^ 64) ^ 6 * carries_exact (2 ^ 64) t.2 row.2 red.2

/-- The iterations for the limbs l of b add a·b and a multiple of p that those limbs bound, and drop as many limbs. -/
theorem foldl_ciosIteration_exact {a : List Nat} (ha : a.length = 6) (l : List Nat) {t : List Nat × Nat}
    (ht : t.1.length = 6) : ∃ M < (2 ^ 64) ^ l.length,
      ciosVal (l.foldl (ciosIteration a) t) * (2 ^ 64) ^ l.length =
        ciosVal t + valOfLimbs a * valOfLimbs l + M * Config.p := by
  induction l generalizing t with
  | nil => exact ⟨0, by simp, by simp [valOfLimbs]⟩
  | cons b l ih =>
    obtain ⟨hlen, m, hm, hstep⟩ := ciosIteration_exact ha ht b
    obtain ⟨M, hM, hrest⟩ := ih hlen
    rw [List.foldl_cons, List.length_cons, pow_succ (2 ^ 64) l.length, valOfLimbs_cons]
    refine ⟨m + 2 ^ 64 * M, digit_add_mul_lt hm hM, ?_⟩
    linear_combination 2 ^ 64 * hrest + hstep

/-- Settles O50: six iterations from 0 multiply exactly, and a·b < p·R. -/
theorem ciosComputesTheMontgomeryProduct : Obligations.CiosComputesTheMontgomeryProduct := by
  intro a b ha hb
  obtain ⟨M, hM, hloop⟩ := foldl_ciosIteration_exact (length_limbsOf 6 a) (limbsOf 6 b) (t := (List.replicate 6 0, 0))
    List.length_replicate
  have hzero : ciosVal (List.replicate 6 0, 0) = 0 := rfl
  rw [length_limbsOf, ← Config.R_eq_six_limbs] at hM hloop
  rw [valOfLimbs_limbsOf_of_lt (ha.trans Config.p_lt_R), valOfLimbs_limbsOf_of_lt (hb.trans Config.p_lt_R), hzero,
    Nat.zero_add] at hloop
  have hT : a * b < Config.p * Config.R := Nat.mul_lt_mul'' ha (hb.trans Config.p_lt_R)
  have hcast : (result .mmul a b : ZMod Config.p) = (a * b : Nat) * Config.Rinv := by rw [cast_mmul, Nat.cast_mul]
  rw [result_eq_subtractOnce hcast hloop (lt_two_mul_p_of_exact hloop hM hT), montMulCios, ciosVal,
    ← Config.R_eq_six_limbs, Config.R]

end Sys2Proof.Machine
end

section
/-! PROOFS. The host's loads, stores and commands, run with no other turn between (R51): O47, O48 and O53. -/

namespace Sys2Proof.Machine

/-- The same block with other responses so far. -/
def State.withResponses (s : State) (rs : List Response) : State := { s with responses := rs }

@[simp] theorem State.respond_withResponses (s : State) (r : Response) (rs : List Response) :
    (s.respond r).withResponses rs = s.withResponses rs := rfl

@[simp] theorem Operand.set_withResponses (o : Operand) (s : State) (x : Reg) (rs : List Response) :
    (o.set s x).withResponses rs = o.set (s.withResponses rs) x := by cases o <;> rfl

namespace HostProg

variable {α β : Type}

theorem run_single {p q : HostProg α} {s t : State} {b : Bool} (h : p.turn s b = .next (t, q)) :
    p.run [b] s = .next (t, q) :=
  run_cons h []

end HostProg

namespace HostNotation

open HostProg

variable {α β : Type}

/-! `ld384`. -/

/-- `wr` and what follows it, where the write completes. -/
theorem turn_wr_seq {s t : State} {off : Nat} {v : Word} {q : HostProg β}
    (h : step (s.withEvents (.host (.write off 4 0xF v) :: s.events)) = .next t)
    (hr : t.responses.headD .completes = .completes) : ((wr off v).seq q).turn s true = .next (t, q) :=
  turn_host (p := (wr off v).seq q) rfl h hr

/-- The host's write of word i of an operand register, placed before every listed turn. -/
theorem step_wr_operand (s : State) (o : Operand) {i : Nat} (hi : i < 12) (v : Word) :
    step (s.withEvents (.host (.write (o.offset + 4 * i) 4 0xF v) :: s.events)) =
      .next (o.set (s.respond .completes) (setWord (o.get s) i v)) := by
  rw [step_write_operand (o := o) hi rfl, Operand.get_withEvents]
  rfl

/-- A register after the writes of `ld384` for the listed word numbers. -/
def writtenWords (n : Nat) (x : Reg) (l : List Nat) : Reg :=
  l.foldl (fun x i => setWord x i (BitVec.ofNat 32 (n / 2 ^ (32 * i)))) x

/-- A written word holds its part of the number, and the others stay. -/
theorem getWord_writtenWords (n : Nat) (x : Reg) (l : List Nat) {j : Nat} (hj : j < 12) :
    getWord (writtenWords n x l) j = if j ∈ l then BitVec.ofNat 32 (n / 2 ^ (32 * j)) else getWord x j := by
  induction l generalizing x with
  | nil => simp [writtenWords]
  | cons i l ih =>
    rw [writtenWords, List.foldl_cons, ← writtenWords, ih, getWord_setWord x hj]
    by_cases hl : j ∈ l
    · simp [hl]
    · by_cases hi : j = i <;> simp [hl, hi]

/-- All twelve words written are the register. -/
theorem writtenWords_range (x y : Reg) : writtenWords x.toNat y (List.range 12) = x := by
  refine reg_ext fun j hj => ?_
  rw [getWord_writtenWords _ _ _ hj, if_pos (List.mem_range.2 hj)]
  exact BitVec.eq_of_toNat_eq (by rw [getWord_toNat, BitVec.toNat_ofNat])

theorem run_writeWords (o : Operand) (n : Nat) {l : List Nat} (hl : ∀ i ∈ l, i < 12) (s : State) :
    (writeWords o.offset n l).run (List.replicate l.length true) s =
      .next (o.set (s.withResponses (List.replicate l.length .completes ++ s.responses)) (writtenWords n (o.get s) l),
        .done ()) := by
  induction l generalizing s with
  | nil => cases o <;> rfl
  | cons i l ih =>
    obtain ⟨hi, hl'⟩ := List.forall_mem_cons.1 hl
    rw [List.length_cons, List.replicate_succ, writeWords,
      run_cons (turn_wr_seq (step_wr_operand s o hi _) (by simp)), ih hl']
    simp [writtenWords, List.replicate_succ']

theorem run_ld384 (o : Operand) (x : Reg) (s : State) :
    (ld384 o.offset x.toNat).run (List.replicate 12 true) s =
      .next (o.set (s.withResponses (List.replicate 12 .completes ++ s.responses)) x, .done ()) := by
  have h := run_writeWords o x.toNat (l := List.range 12) (fun _ => List.mem_range.1) s
  rwa [writtenWords_range, List.length_range] at h

end HostNotation

/-- Settles O47: twelve writes, each of one word, leave the register at the value. -/
theorem ld384LoadsTheOperand : Obligations.Ld384LoadsTheOperand :=
  fun s x => ⟨HostNotation.run_ld384 .a x s, HostNotation.run_ld384 .b x s⟩

namespace HostNotation

open HostProg

variable {α β : Type}

/-! `st384`. -/

/-- `rd` and what follows it, where the read returns a word. -/
theorem turn_rd_bind {s : State} {off : Nat} {w : Word} (h : s.busRead off 4 = .data w) (f : Word → HostProg β) :
    ((rd off).bind f).turn s true = .next (s.respond (.data w), f w) := by
  rw [turn_read (p := (rd off).bind f) (off := off) rfl, h]
  rfl

/-- The reads of a register's words hand them to what follows, in their order. -/
theorem run_readWords_bind {s : State} {reg : Nat} {x : Reg} {l : List Nat} (hl : ∀ i ∈ l, i < 12)
    (h : ∀ i < 12, s.busRead (reg + 4 * i) 4 = .data (getWord x i)) (f : List Word → HostProg β) (sched : List Bool) :
    ((readWords reg l).bind f).run (List.replicate l.length true ++ sched) s =
      (f (l.map (getWord x))).run sched
        (s.withResponses ((l.map fun i => Response.data (getWord x i)).reverse ++ s.responses)) := by
  induction l generalizing s f with
  | nil => rfl
  | cons i l ih =>
    obtain ⟨hi, hl'⟩ := List.forall_mem_cons.1 hl
    rw [readWords, bind_assoc, List.length_cons, List.replicate_succ, List.cons_append,
      run_cons (turn_rd_bind (h i hi) _), bind_assoc]
    refine (ih hl' (s := s.respond _) h fun ws => f (getWord x i :: ws)).trans ?_
    simp [State.withResponses, State.respond]

@[simp] theorem assemble_cons (w : Word) (ws : List Word) : assemble (w :: ws) = w.toNat + 2 ^ 32 * assemble ws := rfl

theorem assemble_concat (ws : List Word) (w : Word) :
    assemble (ws ++ [w]) = assemble ws + (2 ^ 32) ^ ws.length * w.toNat := by
  induction ws with
  | nil => simp [assemble]
  | cons v ws ih =>
    rw [List.cons_append, assemble_cons, ih, assemble_cons, List.length_cons]
    ring

/-- The words of a register, assembled, are its value. -/
theorem assemble_words (x : Reg) : assemble ((List.range 12).map (getWord x)) = x.toNat := by
  have partial_sum (n : Nat) : assemble ((List.range n).map (getWord x)) =
      ∑ i ∈ Finset.range n, (getWord x i).toNat * 2 ^ (32 * i) := by
    induction n with
    | zero => rfl
    | succ n ih => rw [List.range_succ, List.map_append, List.map_singleton, assemble_concat, ih, Finset.sum_range_succ,
        List.length_map, List.length_range, pow_mul, Nat.mul_comm]
  rw [partial_sum, ← val_eq_sum_words]

theorem run_st384_bind {s : State} {reg : Nat} {x : Reg} (h : ∀ i < 12, s.busRead (reg + 4 * i) 4 = .data (getWord x i))
    (f : Nat → HostProg β) (sched : List Bool) :
    ((st384 reg).bind f).run (List.replicate 12 true ++ sched) s =
      (f x.toNat).run sched
        (s.withResponses (((List.range 12).map fun i => Response.data (getWord x i)).reverse ++ s.responses)) := by
  have hrun := run_readWords_bind (l := List.range 12) (fun _ => List.mem_range.1) h (fun ws => f (assemble ws)) sched
  rw [List.length_range, assemble_words] at hrun
  rw [st384, bind_assoc]
  exact hrun

theorem st384_bind_done (reg : Nat) : (st384 reg).bind .done = st384 reg := by
  rw [st384, bind_assoc]
  rfl

theorem run_st384 {s : State} {reg : Nat} {x : Reg} (h : ∀ i < 12, s.busRead (reg + 4 * i) 4 = .data (getWord x i)) :
    (st384 reg).run (List.replicate 12 true) s =
      .next (s.withResponses (((List.range 12).map fun i => Response.data (getWord x i)).reverse ++ s.responses),
        .done x.toNat) := by
  have hrun := run_st384_bind h .done []
  rwa [st384_bind_done, List.append_nil, run_nil] at hrun

end HostNotation

/-- Settles O48: each of the three registers can be read word by word. -/
theorem st384ReadsTheRegister : Obligations.St384ReadsTheRegister := by
  intro s reg x hmem
  have hread : ∀ i < 12, s.busRead (reg + 4 * i) 4 = .data (getWord x i) := by
    simp only [List.mem_cons, List.not_mem_nil, or_false, Prod.mk.injEq] at hmem
    rcases hmem with ⟨rfl, rfl⟩ | ⟨rfl, rfl⟩ | ⟨rfl, rfl⟩
    · exact fun _ => s.busRead_opa
    · exact fun _ => s.busRead_opb
    · exact fun _ => s.busRead_res
  exact HostNotation.run_st384 hread

namespace HostNotation

open HostProg

/-! The commands, `clr` and `setie`. -/

/-- The state after the host's write of a command word, which `exec` answers. -/
theorem run_command (s : State) (i : Instr) :
    ∃ t, exec i (s.respond .completes) = .next t ∧ (wr CTRL (encode i)).run [true] s = .next (t, .done ()) := by
  obtain ⟨-, hresponses⟩ := startCommand_world (s.respond .completes) i.opcode.bits i.ie
  have hstep : step (s.withEvents (.host (.write CTRL 4 0xF (encode i)) :: s.events)) = exec i (s.respond .completes) :=
    step_ctrl_of_command rfl (decode_encode i)
  rw [exec_eq] at hstep ⊢
  exact ⟨_, rfl, run_single (turn_wr hstep (by rw [hresponses]; rfl))⟩

theorem step_clr (s : State) : step (s.withEvents (.host (.write STATUS 4 0xF 0x00000006) :: s.events)) =
    .next { s.respond .completes with done := false, err := false, errcode := 0 } :=
  (step_status rfl).trans (congrArg _ (State.statusWrite_eq ..))

theorem run_clr (s : State) : clr.run [true] s =
    .next ({ s.respond .completes with done := false, err := false, errcode := 0 }, .done ()) :=
  run_single (turn_wr (step_clr s) rfl)

theorem step_setie (s : State) (b : Bool) :
    step (s.withEvents (.host (.write CTRL 4 0xF (bit b <<< 16)) :: s.events)) =
      .next ((s.respond .completes).setCtrl 0 b) := by
  have hfields : ctrlStart (bit b <<< 16) = false ∧ ctrlOp (bit b <<< 16) = 0 ∧ ctrlIe (bit b <<< 16) = b := by
    cases b <;> decide
  obtain ⟨hstart, hop, hie⟩ := hfields
  have hstep := step_ctrl_of_no_start (s := s.withEvents (.host (.write CTRL 4 0xF (bit b <<< 16)) :: s.events)) rfl hstart
  rwa [hop, hie] at hstep

theorem run_setie (s : State) (b : Bool) :
    (setie b).run [true] s = .next ((s.respond .completes).setCtrl 0 b, .done ()) :=
  run_single (turn_wr (step_setie s b) rfl)

end HostNotation

/-- Settles O53: each of the ten names is the write of its command's word. -/
theorem commandNotationRunsTheCommand : Obligations.CommandNotationRunsTheCommand := by
  intro s w
  refine ⟨?_, HostNotation.run_clr s, HostNotation.run_setie s⟩
  have command := HostNotation.run_command s
  simp only [List.forall_mem_cons, List.not_mem_nil, false_imp_iff, implies_true, and_true]
  exact ⟨command (.mmul false), command (.msqr false), command (.mredc false), command (.tomont false),
    command (.frommont false), command (.mmul true), command (.msqr true), command (.mredc true), command (.tomont true),
    command (.frommont true)⟩

end Sys2Proof.Machine
end

section
/-! PROOFS. Host programs under every schedule (R51, R82, R85; log entry 14): O49, O52, O54 and O55. -/

namespace Sys2Proof.Machine

/-! The two kinds of state such a program meets: no turn is listed, and a command is in flight or none is. -/

namespace State

/-- No command in flight and no turn listed. -/
structure Idle (s : State) : Prop where
  busy : s.busy = false
  events : s.events = []

/-- The command `op` in flight and no turn listed. -/
structure InFlight (s : State) (op : Opcode) : Prop where
  busy : s.busy = true
  lop : s.lop = op.bits
  events : s.events = []

/-- The state after the completion of the command `op`. -/
def completed (s : State) (op : Opcode) : State :=
  s.finish (inRange op (val s.la) (val s.lb)) (result op (val s.la) (val s.lb))

@[simp] theorem completed_busy (s : State) (op : Opcode) : (s.completed op).busy = false := finish_busy ..
@[simp] theorem completed_done (s : State) (op : Opcode) : (s.completed op).done = true := finish_done ..
@[simp] theorem completed_events (s : State) (op : Opcode) : (s.completed op).events = s.events := finish_events ..
@[simp] theorem completed_err (s : State) (op : Opcode) :
    (s.completed op).err = (s.err || !inRange op (val s.la) (val s.lb)) := finish_err ..
@[simp] theorem completed_res (s : State) (op : Opcode) : (s.completed op).res =
    bif inRange op (val s.la) (val s.lb) then BitVec.ofNat 384 (result op (val s.la) (val s.lb)) else 0 := finish_res ..

theorem Idle.step {s : State} (h : s.Idle) : Machine.step s = .next s := by
  rw [step_silent h.events, engineTurn, h.busy]
  rfl

theorem InFlight.step {s : State} {op : Opcode} (h : s.InFlight op) : Machine.step s = .next (s.completed op) := by
  rw [step_silent h.events, engineTurn, if_pos h.busy, complete_of_legal h.lop]
  rfl

theorem InFlight.idle_completed {s : State} {op : Opcode} (h : s.InFlight op) : (s.completed op).Idle :=
  ⟨s.completed_busy op, (s.completed_events op).trans h.events⟩

theorem Idle.withResponses {s : State} (h : s.Idle) (rs : List Response) : (s.withResponses rs).Idle := ⟨h.busy, h.events⟩

theorem Idle.respond {s : State} (h : s.Idle) (r : Response) : (s.respond r).Idle := ⟨h.busy, h.events⟩

theorem Idle.set {s : State} (h : s.Idle) (o : Operand) (x : Reg) : (o.set s x).Idle :=
  ⟨(o.set_busy s x).trans h.busy, (o.set_events s x).trans h.events⟩

theorem InFlight.respond {s : State} {op : Opcode} (h : s.InFlight op) (r : Response) : (s.respond r).InFlight op :=
  ⟨h.busy, h.lop, h.events⟩

theorem completed_respond (s : State) (r : Response) (op : Opcode) :
    (s.respond r).completed op = (s.completed op).respond r :=
  (finish_respond ..).symm

/-- A state that meets the invariants, with no turn listed, is of one of the two kinds. -/
theorem Inv.idle_or_inFlight {s : State} (h : s.Inv) (he : s.events = []) : s.Idle ∨ ∃ op, s.InFlight op := by
  cases hb : s.busy with
  | false => exact .inl ⟨hb, he⟩
  | true =>
    obtain ⟨op, hop⟩ := h.lopLegal hb
    exact .inr ⟨op, hb, hop, he⟩

end State

namespace HostProg

variable {α β : Type} {p : HostProg α} {s u : State} {op : Opcode}

/-! What a program leaves behind under every schedule. -/

/-- Whenever a run of p from s ends, under whatever schedule, Q holds of the state and the value it leaves. -/
def Leaves (p : HostProg α) (s : State) (Q : State → α → Prop) : Prop :=
  ∀ (sched : List Bool) (t : State) (a : α), p.run sched s = .next (t, .done a) → Q t a

theorem Leaves.imp {Q R : State → α → Prop} (h : p.Leaves s Q) (himp : ∀ t a, Q t a → R t a) : p.Leaves s R :=
  fun sched t a hrun => himp t a (h sched t a hrun)

theorem leaves_bind {R : State → α → Prop} {Q : State → β → Prop} {f : α → HostProg β} (hp : p.Leaves s R)
    (hf : ∀ t a, R t a → (f a).Leaves t Q) : (p.bind f).Leaves s Q := by
  intro sched t b h
  obtain ⟨xs, ys, v, a, -, h1, h2⟩ := run_bind h
  exact hf v a (hp xs v a h1) ys t b h2

/-- In an idle block the engine's turns change nothing: the host's next turn decides. -/
theorem leaves_of_turn {Q : State → α → Prop} {q : HostProg α} (hs : s.Idle) (hp : ∀ a, p ≠ done a)
    (hturn : p.turn s true = .next (u, q)) (hq : q.Leaves u Q) : p.Leaves s Q := by
  intro sched t a h
  induction sched with
  | nil => cases h; exact absurd rfl (hp a)
  | cons b sched ih =>
    cases b with
    | true => rw [run_cons hturn] at h; exact hq sched t a h
    | false => rw [run_cons (turn_other hs.step)] at h; exact ih h

theorem leaves_done {Q : State → α → Prop} {a : α} (hs : s.Idle) (hQ : Q s a) : (done a).Leaves s Q := by
  intro sched t a' h
  induction sched with
  | nil => cases h; exact hQ
  | cons b sched ih =>
    cases b with
    | true => rw [run_cons (turn_done a s)] at h; exact ih h
    | false => rw [run_cons (turn_other hs.step)] at h; exact ih h

/-- A program that ends with a command in flight leaves it in flight or completed. -/
theorem leaves_done_inFlight {Q : State → α → Prop} {a : α} (hs : s.InFlight op) (hQ : Q s a)
    (hQ' : Q (s.completed op) a) : (done a).Leaves s Q := by
  intro sched t a' h
  induction sched with
  | nil => cases h; exact hQ
  | cons b sched ih =>
    cases b with
    | true => rw [run_cons (turn_done a s)] at h; exact ih h
    | false => rw [run_cons (turn_other hs.step)] at h; exact leaves_done hs.idle_completed hQ' sched t a' h

/-! Some schedule under which a program ends. -/

/-- Some run of p from s ends in t and leaves a. -/
def Ends (p : HostProg α) (s t : State) (a : α) : Prop := ∃ sched, p.run sched s = .next (t, .done a)

theorem Ends.bind {t v : State} {a : α} {b : β} {f : α → HostProg β} (hp : p.Ends s t a) (hf : (f a).Ends t v b) :
    (p.bind f).Ends s v b := by
  obtain ⟨xs, hxs⟩ := hp
  obtain ⟨ys, hys⟩ := hf
  obtain ⟨xs', h⟩ := run_bind_of (f := f) hxs
  exact ⟨xs' ++ ys, (run_append h ys).trans hys⟩

end HostProg

namespace HostNotation

open HostProg

variable {β : Type} {s : State} {op : Opcode}

/-! `wait`. -/

theorem wait_ne_done (a : Unit) : wait ≠ .done a := nofun

theorem leaves_wait_idle (hs : s.Idle) : wait.Leaves s fun t _ => ∃ rs, t = s.withResponses rs := by
  have hturn := turn_wait s
  rw [hs.busy] at hturn
  exact leaves_of_turn hs wait_ne_done hturn (leaves_done (hs.respond _) ⟨_, rfl⟩)

/-- A read with the command in flight goes on waiting; the completion leaves an idle block, in which the next read ends it. -/
theorem leaves_wait_inFlight (hs : s.InFlight op) :
    wait.Leaves s fun t _ => ∃ rs, t = (s.completed op).withResponses rs := by
  intro sched t a h
  induction sched generalizing s with
  | nil => cases h
  | cons b sched ih =>
    cases b with
    | true =>
      have hturn := turn_wait s
      rw [hs.busy] at hturn
      rw [run_cons hturn] at h
      obtain ⟨rs, rfl⟩ := ih (hs.respond _) h
      exact ⟨rs, by rw [State.completed_respond, State.respond_withResponses]⟩
    | false =>
      rw [run_cons (turn_other hs.step)] at h
      exact leaves_wait_idle hs.idle_completed sched t a h

theorem run_wait_idle (hs : s.Idle) : wait.run [true] s = .next (s.respond (.data s.statusWord), .done ()) := by
  have hturn := turn_wait s
  rw [hs.busy] at hturn
  exact run_single hturn

/-- Any number of reads, the completion and one read. -/
theorem exists_run_wait_inFlight (hs : s.InFlight op) (n : Nat) :
    ∃ rs, wait.run (List.replicate n true ++ [false, true]) s = .next ((s.completed op).withResponses rs, .done ()) := by
  induction n generalizing s with
  | zero =>
    have hrun := run_wait_idle hs.idle_completed
    exact ⟨_, (run_cons (turn_other hs.step) _).trans hrun⟩
  | succ n ih =>
    have hturn := turn_wait s
    rw [hs.busy] at hturn
    obtain ⟨rs, hrun⟩ := ih (hs.respond (.data s.statusWord))
    rw [State.completed_respond, State.respond_withResponses] at hrun
    exact ⟨rs, (run_cons hturn _).trans hrun⟩

end HostNotation

/-- Settles O52: one read by BUSY, and with a command in flight the completion comes before the last read. -/
theorem waitEndsAtTheFirstIdleRead : Obligations.WaitEndsAtTheFirstIdleRead := by
  refine ⟨fun s => HostProg.run_single (HostNotation.turn_wait s), fun s op hb hop he => ?_⟩
  have hs : s.InFlight op := ⟨hb, hop, he⟩
  refine ⟨fun sched t h => ?_, fun n => ?_⟩
  · obtain ⟨rs, rfl⟩ := HostNotation.leaves_wait_inFlight hs sched t () h
    exact ⟨s.completed_busy op, s.completed_done op, s.completed_res op⟩
  · obtain ⟨rs, hrun⟩ := HostNotation.exists_run_wait_inFlight hs n
    exact ⟨_, hrun⟩

namespace HostNotation

open HostProg

variable {β : Type} {s : State} {op : Opcode}

/-! `ld384` and `st384`, in an idle block. -/

theorem leaves_writeWords (hs : s.Idle) (o : Operand) (n : Nat) {l : List Nat} (hl : ∀ i ∈ l, i < 12) :
    (writeWords o.offset n l).Leaves s fun t _ => ∃ rs, t = o.set (s.withResponses rs) (writtenWords n (o.get s) l) := by
  induction l generalizing s with
  | nil => exact leaves_done hs ⟨s.responses, by cases o <;> rfl⟩
  | cons i l ih =>
    obtain ⟨hi, hl'⟩ := List.forall_mem_cons.1 hl
    refine leaves_of_turn hs nofun (turn_wr_seq (step_wr_operand s o hi _) (by simp))
      ((ih ((hs.respond _).set o _) hl').imp ?_)
    rintro t - ⟨rs, rfl⟩
    exact ⟨rs, by simp [writtenWords]⟩

theorem leaves_ld384 (hs : s.Idle) (o : Operand) {n : Nat} {x : Reg} (hx : x.toNat = n) :
    (ld384 o.offset n).Leaves s fun t _ => ∃ rs, t = o.set (s.withResponses rs) x := by
  subst hx
  refine (leaves_writeWords hs o x.toNat (l := List.range 12) fun _ => List.mem_range.1).imp ?_
  rintro t - ⟨rs, rfl⟩
  exact ⟨rs, by rw [writtenWords_range]⟩

theorem leaves_readWords_bind {reg : Nat} {x : Reg} {l : List Nat} {Q : State → β → Prop} (hs : s.Idle)
    (hl : ∀ i ∈ l, i < 12) (h : ∀ i < 12, s.busRead (reg + 4 * i) 4 = .data (getWord x i)) {f : List Word → HostProg β}
    (hf : ∀ rs, (f (l.map (getWord x))).Leaves (s.withResponses rs) Q) : ((readWords reg l).bind f).Leaves s Q := by
  induction l generalizing s f with
  | nil => exact hf s.responses
  | cons i l ih =>
    obtain ⟨hi, hl'⟩ := List.forall_mem_cons.1 hl
    rw [readWords, bind_assoc]
    refine leaves_of_turn hs nofun (turn_rd_bind (h i hi) _) ?_
    rw [bind_assoc]
    exact ih (hs.respond _) hl' h fun rs => hf rs

theorem leaves_st384_bind {reg : Nat} {x : Reg} {Q : State → β → Prop} (hs : s.Idle)
    (h : ∀ i < 12, s.busRead (reg + 4 * i) 4 = .data (getWord x i)) {f : Nat → HostProg β}
    (hf : ∀ rs, (f x.toNat).Leaves (s.withResponses rs) Q) : ((st384 reg).bind f).Leaves s Q := by
  rw [st384, bind_assoc]
  refine leaves_readWords_bind hs (fun _ => List.mem_range.1) h fun rs => ?_
  rw [← assemble_words x] at hf
  exact hf rs

theorem leaves_st384 {reg : Nat} {x : Reg} (hs : s.Idle)
    (h : ∀ i < 12, s.busRead (reg + 4 * i) 4 = .data (getWord x i)) :
    (st384 reg).Leaves s fun t n => (∃ rs, t = s.withResponses rs) ∧ n = x.toNat := by
  rw [← st384_bind_done]
  exact leaves_st384_bind hs h fun rs => leaves_done (hs.withResponses rs) ⟨⟨rs, rfl⟩, rfl⟩

theorem leaves_mov384 (hs : s.Idle) (o : Operand) :
    (mov384 o.offset).Leaves s fun t _ => ∃ rs, t = o.set (s.withResponses rs) s.res :=
  leaves_st384_bind hs (fun _ => s.busRead_res) fun rs => leaves_ld384 (hs.withResponses rs) o rfl

theorem exists_run_mov384 (s : State) (o : Operand) :
    ∃ t, (mov384 o.offset).run (List.replicate 24 true) s = .next (t, .done ()) :=
  ⟨_, (run_st384_bind (fun _ => s.busRead_res) (ld384 o.offset) (List.replicate 12 true)).trans (run_ld384 o s.res _)⟩

end HostNotation

/-- Settles O54: twelve reads of RES hand its value to the twelve writes, and an idle block keeps it between them. -/
theorem mov384CopiesTheResult : Obligations.Mov384CopiesTheResult := by
  intro s hb he
  refine ⟨fun sched t => ⟨fun h => ?_, fun h => ?_⟩, HostNotation.exists_run_mov384 s .a, HostNotation.exists_run_mov384 s .b⟩
  · obtain ⟨rs, rfl⟩ := HostNotation.leaves_mov384 ⟨hb, he⟩ .a sched t () h
    rfl
  · obtain ⟨rs, rfl⟩ := HostNotation.leaves_mov384 ⟨hb, he⟩ .b sched t () h
    rfl

theorem zero_toNat : (0 : Reg).toNat = 0 := by rw [BitVec.ofNat_eq_ofNat, BitVec.toNat_zero]

namespace HostNotation

open HostProg

variable {β : Type} {s : State} {op : Opcode}

/-! A command and a `wait` for it. -/

/-- The state after the START of a command notation without IE. -/
def started (s : State) (op : Opcode) : State := ((s.respond .completes).setCtrl op.bits false).accept op.bits

theorem started_inFlight (hs : s.Idle) (op : Opcode) : (started s op).InFlight op := ⟨rfl, rfl, hs.events⟩

theorem cmd_eq_wr (op : Opcode) : cmd op.bits = wr CTRL (encode (Instr.ofOpcode op false)) := by cases op <;> rfl

theorem turn_cmd (hs : s.Idle) (op : Opcode) : (cmd op.bits).turn s true = .next (started s op, .done ()) := by
  have hstep := step_start_of_idle (s := s.withEvents (.host (ctrlAccess (encode (Instr.ofOpcode op false))) :: s.events))
    rfl hs.busy
  rw [Instr.ofOpcode_opcode, Instr.ofOpcode_ie] at hstep
  rw [cmd_eq_wr]
  exact turn_wr hstep rfl

/-- After a command and a `wait`, the block is idle and the command has completed, wherever the completion fell. -/
theorem leaves_cmd_wait {q : HostProg β} {Q : State → β → Prop} (hs : s.Idle)
    (hq : ∀ rs, q.Leaves (((started s op).completed op).withResponses rs) Q) :
    ((cmd op.bits).seq (wait.seq q)).Leaves s Q := by
  have hflight := started_inFlight hs op
  refine leaves_bind (R := fun t _ => t = started s op ∨ t = (started s op).completed op)
    (leaves_of_turn hs nofun (turn_cmd hs op) (leaves_done_inFlight hflight (.inl rfl) (.inr rfl))) ?_
  rintro t - ht
  refine leaves_bind (R := fun t _ => ∃ rs, t = ((started s op).completed op).withResponses rs) ?_ ?_
  · rcases ht with rfl | rfl
    · exact leaves_wait_inFlight hflight
    · exact leaves_wait_idle hflight.idle_completed
  · rintro t - ⟨rs, rfl⟩
    exact hq rs

theorem ends_cmd (hs : s.Idle) (op : Opcode) : (cmd op.bits).Ends s (started s op) () :=
  ⟨[true], run_single (turn_cmd hs op)⟩

theorem exists_ends_wait (hs : s.Idle ∨ ∃ op, s.InFlight op) : ∃ t, t.Idle ∧ wait.Ends s t () := by
  rcases hs with hs | ⟨op, hs⟩
  · exact ⟨_, hs.respond _, [true], run_wait_idle hs⟩
  · obtain ⟨rs, hrun⟩ := exists_run_wait_inFlight hs 0
    exact ⟨_, hs.idle_completed.withResponses rs, _, hrun⟩

/-- The block after a command and its completion, from the operands that the START found (R52, R55). -/
theorem completed_started (s : State) (op : Opcode) :
    ((started s op).completed op).done = true ∧
      ((started s op).completed op).err = !inRange op s.opa.toNat s.opb.toNat ∧
      ((started s op).completed op).res.toNat =
        bif inRange op s.opa.toNat s.opb.toNat then result op s.opa.toNat s.opb.toNat else 0 := by
  have hla : (started s op).la = s.opa := rfl
  have hlb : (started s op).lb = s.opb := rfl
  refine ⟨State.completed_done .., State.completed_err .., ?_⟩
  rw [State.completed_res, hla, hlb]
  cases inRange op (val s.opa) (val s.opb) with
  | true => exact toNat_ofNat_result op _ _
  | false => exact zero_toNat

theorem leaves_cmd_wait_st384 (hs : s.Idle) (op : Opcode) :
    ((cmd op.bits).seq (wait.seq (st384 RES))).Leaves s fun t n =>
      (∃ rs, t = ((started s op).completed op).withResponses rs) ∧ n = ((started s op).completed op).res.toNat := by
  have hidle := (started_inFlight hs op).idle_completed
  refine leaves_cmd_wait hs fun rs => (leaves_st384 (x := ((started s op).completed op).res) (hidle.withResponses rs)
    fun _ => State.busRead_res _).imp ?_
  rintro t n ⟨⟨rs', rfl⟩, hn⟩
  exact ⟨⟨rs', rfl⟩, hn⟩

theorem exists_ends_cmd_wait_st384 (hs : s.Idle) (op : Opcode) :
    ∃ t n, ((cmd op.bits).seq (wait.seq (st384 RES))).Ends s t n := by
  obtain ⟨t, -, hwait⟩ := exists_ends_wait (.inr ⟨op, started_inFlight hs op⟩)
  exact ⟨_, _, (ends_cmd hs op).bind (hwait.bind ⟨_, run_st384 fun _ => t.busRead_res⟩)⟩

end HostNotation

/-- Settles O55: after the `wait` the command has completed, and the twelve reads leave the value of RES. -/
theorem commandWaitReadReturnsTheResult : Obligations.CommandWaitReadReturnsTheResult := by
  intro s op hb he p
  obtain ⟨hdone, herr, hres⟩ := HostNotation.completed_started s op
  refine ⟨fun sched t n hrun => ?_, ?_⟩
  · obtain ⟨⟨rs, rfl⟩, rfl⟩ := HostNotation.leaves_cmd_wait_st384 ⟨hb, he⟩ op sched t n hrun
    exact ⟨hres, hdone, herr⟩
  · obtain ⟨t, n, sched, hrun⟩ := HostNotation.exists_ends_cmd_wait_st384 ⟨hb, he⟩ op
    exact ⟨sched, t, n, hrun⟩

namespace HostNotation

open HostProg

variable {s : State}

/-! R82's sequence. -/

/-- MMUL of 0 by 0 leaves 0 in RES and no error. -/
theorem completed_mmul_zero (hs : s.Idle) (hopa : s.opa = 0) (hopb : s.opb = 0) :
    (started s .mmul).completed .mmul =
      { State.reset with op := 1, lop := 1, done := true, responses := .completes :: s.responses } := by
  have hla : (started s .mmul).la = 0 := hopa
  have hlb : (started s .mmul).lb = 0 := hopb
  have hr : inRange .mmul (val 0) (val 0) = true := inRange_mmul_iff.2 ⟨zero_toNat_lt_p, zero_toNat_lt_p⟩
  rw [State.completed, hla, hlb, hr, val, zero_toNat, mmul_zero]
  exact State.eq_of_fields rfl rfl rfl rfl rfl rfl hopa hopb rfl rfl hopa hopb hs.events rfl

theorem leaves_wait (hs : s.Idle ∨ ∃ op, s.InFlight op) : wait.Leaves s fun t _ => t.Idle := by
  rcases hs with hs | ⟨op, hs⟩
  · exact (leaves_wait_idle hs).imp fun t _ ⟨rs, ht⟩ => ht ▸ hs.withResponses rs
  · exact (leaves_wait_inFlight hs).imp fun t _ ⟨rs, ht⟩ => ht ▸ hs.idle_completed.withResponses rs

/-- `clr` and `setie 0` after MMUL of 0 by 0 leave the reset state, but for LOP. -/
theorem leaves_clr_setie (rs : List Response) :
    (clr.seq (setie false)).Leaves { State.reset with op := 1, lop := 1, done := true, responses := rs }
      fun t _ => ∃ rs', t = { State.reset with lop := 1, responses := rs' } :=
  leaves_of_turn ⟨rfl, rfl⟩ nofun (turn_wr_seq (step_clr _) rfl)
    (leaves_of_turn ⟨rfl, rfl⟩ nofun (turn_wr (step_setie _ false) rfl) (leaves_done ⟨rfl, rfl⟩ ⟨_, rfl⟩))

theorem leaves_softwareReset (hs : s.Idle ∨ ∃ op, s.InFlight op) :
    softwareReset.Leaves s fun t _ => ∃ rs, t = { State.reset with lop := 1, responses := rs } := by
  refine leaves_bind (leaves_wait hs) fun t _ ht => ?_
  refine leaves_bind (leaves_ld384 ht .a zero_toNat) ?_
  rintro u - ⟨rs, rfl⟩
  have hu := (ht.withResponses rs).set .a 0
  refine leaves_bind (leaves_ld384 hu .b zero_toNat) ?_
  rintro v - ⟨rs', rfl⟩
  have hv := (hu.withResponses rs').set .b 0
  refine leaves_cmd_wait (op := .mmul) hv fun rs'' => ?_
  rw [completed_mmul_zero hv rfl rfl]
  exact leaves_clr_setie rs''

theorem exists_ends_ld384_zero (hs : s.Idle) (o : Operand) : ∃ t, t.Idle ∧ (ld384 o.offset 0).Ends s t () := by
  have hrun := run_ld384 o 0 s
  rw [zero_toNat] at hrun
  exact ⟨_, (hs.withResponses _).set o 0, _, hrun⟩

theorem exists_ends_softwareReset (hs : s.Idle ∨ ∃ op, s.InFlight op) : ∃ t, softwareReset.Ends s t () := by
  obtain ⟨t, ht, hwait⟩ := exists_ends_wait hs
  obtain ⟨u, hu, hopa⟩ := exists_ends_ld384_zero ht .a
  obtain ⟨v, hv, hopb⟩ := exists_ends_ld384_zero hu .b
  obtain ⟨w, -, hwait'⟩ := exists_ends_wait (.inr ⟨.mmul, started_inFlight hv .mmul⟩)
  exact ⟨_, hwait.bind (hopa.bind (hopb.bind ((ends_cmd hv .mmul).bind (hwait'.bind
    (Ends.bind ⟨_, run_clr w⟩ ⟨_, run_setie _ false⟩)))))⟩

end HostNotation

/-- Settles O49: the sequence ends in the reset state but for LOP, which no read and no `irq` shows. -/
theorem softwareResetRestoresVisibleState : Obligations.SoftwareResetRestoresVisibleState := by
  intro s hinv he
  have hs := hinv.idle_or_inFlight he
  refine ⟨fun sched t hrun => ?_, ?_⟩
  · obtain ⟨rs, rfl⟩ := HostNotation.leaves_softwareReset hs sched t () hrun
    exact ⟨fun _ _ => rfl, rfl, rfl, rfl, rfl, rfl⟩
  · obtain ⟨t, sched, hrun⟩ := HostNotation.exists_ends_softwareReset hs
    exact ⟨sched, t, hrun⟩

end Sys2Proof.Machine
end
